-- ==== Sys2Proof/Word.lean ====
section
/-! DEFINITION. The words of the CORE: bytes, 16-bit words and register numbers (R6, R8, R20). -/

namespace Sys2Proof

/-- A byte: 8 bits, unsigned (R8). -/
abbrev Byte := BitVec 8

/-- An instruction word, and the width of `I`, `PC` and a stack entry: 16 bits, unsigned (R8, R25, R29, R30). -/
abbrev Word := BitVec 16

/-- A register number: a 4-bit field, so it can never be out of range (R20). -/
abbrev Reg := Fin 16

/-- A key number, 0 to 15 (R33). -/
abbrev Key := Fin 16

/-- The register number a 4-bit field selects (R82). -/
def Reg.ofBits (b : BitVec 4) : Reg := ⟨b.toNat, b.isLt⟩

/-- The 4-bit field that selects a register (R82). -/
def Reg.toBits (r : Reg) : BitVec 4 := BitVec.ofNat 4 r.val

/-- `VF`, the register that carry, not-borrow, shifted-out bit and collision are reported in (R10, R23). -/
def Reg.flag : Reg := 15

end Sys2Proof
end

