-- ==== Sys2Proof/Config.lean ====
section
/-! DEFINITION. The constants the spec fixes for every CORE (R6) and the one free value of the model, the random
byte (R198). The two parameters of R7 are in Machine/Parameters.lean. -/

namespace Sys2Proof

/-- `MEM_SIZE`: the number of bytes of memory (R6). -/
def Config.memSize : Nat := 4096

/-- `LOAD_ADDR`: where LOAD puts a program and where `PC` stands after reset (R6, R51). -/
def Config.loadAddr : Nat := 0x200

/-- The bytes of the font area, 16 glyphs of 5 bytes (R6, R31). -/
def Config.fontBytes : Nat := 80

/-- `STACK_DEPTH`: entries of the return stack (R6). -/
def Config.stackDepth : Nat := 16

/-- DESIGN CHOICE (log entry 3; safe). The byte the source of randomness outside the CORE gives to the `n`-th `RND`
executed: any of the 256 values at each draw, no law on the sequence (R152, R198, U7). It has no body, so nothing can
be proved about its value. -/
opaque Config.randByte : Nat → Byte

end Sys2Proof
end

