-- ==== Sys2Proof/Machine/Parameters.lean ====
section
/-! DEFINITION. The two named parameters of R7, FONT and DUMP_LOAD_INCLUSIVE, and the defaults the spec gives them. -/

namespace Sys2Proof.Machine

/-- `FONT`: 80 bytes, the glyph table (R7, R31). -/
abbrev Font := Vector Byte 80

/-- The parameters of a CORE, which a model takes as arguments (R7). They are fixed for the machine: no instruction and
no command writes them (log entry 14). -/
structure Parameters where
  /-- `FONT`, the reset contents of memory below 80 (R31, R35). -/
  font : Font
  /-- `DUMP_LOAD_INCLUSIVE`: whether the register dump and load reach `V[X]` itself (R164, R165). -/
  dumpLoadInclusive : Bool
  deriving DecidableEq, Repr

/-- PRESUMED (the spec's own default, from general knowledge: R31, D8, G3; log entry 1; unsafe). The default glyph
table, glyph g in row g, five bytes each, top row first (R31). -/
def defaultGlyphs : Vector (Vector Byte 5) 16 :=
  #v[#v[0xF0, 0x90, 0x90, 0x90, 0xF0],
     #v[0x20, 0x60, 0x20, 0x20, 0x70],
     #v[0xF0, 0x10, 0xF0, 0x80, 0xF0],
     #v[0xF0, 0x10, 0xF0, 0x10, 0xF0],
     #v[0x90, 0x90, 0xF0, 0x10, 0x10],
     #v[0xF0, 0x80, 0xF0, 0x10, 0xF0],
     #v[0xF0, 0x80, 0xF0, 0x90, 0xF0],
     #v[0xF0, 0x10, 0x20, 0x40, 0x40],
     #v[0xF0, 0x90, 0xF0, 0x90, 0xF0],
     #v[0xF0, 0x90, 0xF0, 0x10, 0xF0],
     #v[0xF0, 0x90, 0xF0, 0x90, 0x90],
     #v[0xE0, 0x90, 0xE0, 0x90, 0xE0],
     #v[0xF0, 0x80, 0x80, 0x80, 0xF0],
     #v[0xE0, 0x90, 0x90, 0x90, 0xE0],
     #v[0xF0, 0x80, 0xF0, 0x80, 0xF0],
     #v[0xF0, 0x80, 0xF0, 0x80, 0x80]]

/-- The default `FONT`: the glyphs contiguous from address 0 (R7, R31; log entry 1). -/
def defaultFont : Font := defaultGlyphs.flatten

/-- The defaults of R7: the font of R31 and the inclusive bound, which is PRESUMED (the spec's own default, from general
knowledge: R164, D5, G5; log entry 2; unsafe). -/
def Parameters.default : Parameters := ⟨defaultFont, true⟩

end Sys2Proof.Machine
end

