-- ==== Sys2Proof/Machine/State.lean ====
section
/-! DEFINITION. The state of the CORE (10_state.md, summary table) as plain data, its reset value (R39), and the
reasons a step can stop. -/

namespace Sys2Proof.Machine

/-- `MEM` as the bytes that differ from the reset contents: (address, byte) pairs, addresses strictly rising and below
4096, no byte equal to what an unlisted address reads as (R35; the form is `Memory.wf` of Ops.lean). -/
abbrev Memory := List Host.Cell

/-- `DISP`: 32 rows of 64 cells, on or off; row y and column x are cell x + 64*y (R34). -/
abbrev Display := Vector (Vector Bool 64) 32

/-- `FAULT.kind` (R36, R210). -/
inductive FaultKind where
  /-- No fault is latched: the CORE executes instructions. -/
  | none
  /-- An index outside its fixed bound (R210, R211). -/
  | outOfBounds
  /-- An instruction word that matches no row of the opcode map (R113, R210). -/
  | unknownOpcode
  /-- A LOAD that does not fit memory (R192, R210). -/
  | loadOverflow
  deriving DecidableEq, Repr

/-- `FAULT.cause`, the resource whose bound was passed (R211). -/
inductive FaultCause where
  /-- The kind is not OutOfBounds. -/
  | none
  /-- `PC + 1 >= 4096` at the fetch (R110). -/
  | memFetch
  /-- The last data address is 4096 or more (R163, R164, R165, R172). -/
  | memData
  /-- `CALL` with `SP` = 16 (R122). -/
  | stackOverflow
  /-- `RET` with `SP` = 0 (R120). -/
  | stackUnderflow
  /-- `SKP` or `SKNP` with `V[X]` above 15 (R181, R182). -/
  | keyIndex
  deriving DecidableEq, Repr

/-- The fault latch `FAULT` (R36). -/
structure FaultLatch where
  kind : FaultKind
  cause : FaultCause
  info : Word
  deriving DecidableEq, Repr

/-- The latch with no fault in it: (NONE, 0, 0) (R36). -/
def FaultLatch.clear : FaultLatch := ⟨.none, .none, 0⟩

/-- The state of the CORE. `params` are the parameters of R7, carried here because a step takes no other argument (log
entry 14); the twelve fields from `v` to `toneCue` are the spec's state (10_state.md §1); `draws` and `randIn` are the
model's own and carry the random input (log entry 3). -/
structure State where
  /-- `FONT` and `DUMP_LOAD_INCLUSIVE`, fixed for the machine (R7; log entry 14). -/
  params : Parameters
  /-- `V[0..15]`, the general registers (R20). -/
  v : Vector Byte 16
  /-- `I`, the index register (R29). -/
  i : Word
  /-- `PC`, the program counter, a byte address (R25). -/
  pc : Word
  /-- `SP`, the number of stack entries in use, 0 to 16 (R30, R38). -/
  sp : Fin 17
  /-- `STACK[0..15]`, the return addresses (R30). -/
  stack : Vector Word 16
  /-- `DT`, the delay timer (R32). -/
  dt : Byte
  /-- `ST`, the sound timer (R32). -/
  st : Byte
  /-- `KEYS[0..15]`, the key levels (R33). -/
  keys : Vector Bool 16
  /-- `DISP`, the frame buffer (R34). -/
  disp : Display
  /-- `MEM` (R35). -/
  mem : Memory
  /-- `FAULT`, the fault latch (R36). -/
  fault : FaultLatch
  /-- `TONE_CUE`, the tone-cue output bit (R40). -/
  toneCue : Bool
  /-- The model's own: how many `RND` have drawn, the index of the next free byte (log entry 3). -/
  draws : Nat
  /-- The model's own: the `rand` argument of the STEP(rand) command being performed, when the command names it
  (R191, R198; log entry 3). -/
  randIn : Option Byte
  deriving DecidableEq, Repr

/-- Every cell off. -/
def Display.blank : Display := Vector.replicate 32 (Vector.replicate 64 false)

/-- The state after RESET and at power-on of a CORE with these parameters: every field at the value R39 gives it; the
model's own fields at the values log entry 3 gives them. Memory lists nothing: every address reads as its reset
contents (R35). -/
def State.resetWith (p : Parameters) : State where
  params := p
  v := Vector.replicate 16 0
  i := 0
  pc := 0x200
  sp := 0
  stack := Vector.replicate 16 0
  dt := 0
  st := 0
  keys := Vector.replicate 16 false
  disp := Display.blank
  mem := []
  fault := FaultLatch.clear
  toneCue := false
  draws := 0
  randIn := none

/-- The state after reset with the default parameters of R7 (log entries 1 and 2). -/
def State.reset : State := State.resetWith Parameters.default

/-- Why a step could stop with no next state. The type has no constructor: the spec gives every fault an entry, the
latch `FAULT` (R214), so each fault is a NEXT state, and a STEP of a halted CORE changes nothing (R191). Safe: nothing
can be proved of a stop that never happens. -/
inductive Fault : Type
  deriving DecidableEq, Repr

/-- Why an instruction has no meaning. -/
inductive Refusal where
  /-- Raised by the dispatcher for an instruction that is not modelled yet; no arm raises it now. Safe: nothing can be
  proved of what a refused instruction does. -/
  | notModelled (mnemonic : String)
  deriving DecidableEq, Repr

/-- What a step of this machine answers. -/
abbrev Result := Host.Outcome State Fault Refusal

end Sys2Proof.Machine
end

