-- ==== Sys2Proof/Machine/Ops.lean ====
section
/-! DEFINITION. The named operations over memory, display and the fault latch: reading and writing a byte (R11), the
bounds check of the address translator (R57, R58), and fault entry (R214). -/

namespace Sys2Proof.Machine

/-! ## Memory -/

/-- What an address the memory does not list reads as: its reset contents, `FONT[a]` for a < 80 and 0 above (R35). -/
def Memory.unlisted (f : Font) (a : Nat) : Byte := f[a]?.getD 0

/-- The byte at an address (R11, R35). The bounds check of R57 is made by the caller, before any access. -/
def Memory.read (f : Font) : Memory → Nat → Byte
  | [], a => Memory.unlisted f a
  | (c, d) :: m, a => if c = a then d else Memory.read f m a

/-- `MEM[a] <- b` (R11), keeping the canonical form: the entry stands in address order, and writing what an unlisted
address reads as removes it. -/
def Memory.write (f : Font) : Memory → Nat → Byte → Memory
  | [], a, b => if b = Memory.unlisted f a then [] else [(a, b)]
  | (c, d) :: m, a, b =>
    if c < a then (c, d) :: Memory.write f m a b
    else if c = a then (if b = Memory.unlisted f a then m else (a, b) :: m)
    else if b = Memory.unlisted f a then (c, d) :: m else (a, b) :: (c, d) :: m

/-- Consecutive single-byte writes, the first at the lowest address: `LD B` (R163), the register dump (R164) and LOAD
(R192). -/
def Memory.writeBytes (f : Font) : Memory → Nat → List Byte → Memory
  | m, _, [] => m
  | m, a, b :: bs => Memory.writeBytes f (Memory.write f m a b) (a + 1) bs

/-- The canonical form from a lower bound on: addresses strictly rising, each below 4096, no byte equal to what its
address reads as when it is not listed. -/
def Memory.wfFrom (f : Font) : Nat → Memory → Bool
  | _, [] => true
  | lo, (a, b) :: m =>
    decide (lo ≤ a) && decide (a < Config.memSize) && decide (b ≠ Memory.unlisted f a) && Memory.wfFrom f (a + 1) m

/-- The canonical form of memory. -/
def Memory.wf (f : Font) (m : Memory) : Bool := Memory.wfFrom f 0 m

/-- `MEM[a]` of a CORE (R11, R35). -/
def State.byte (s : State) (a : Nat) : Byte := Memory.read s.params.font s.mem a

/-- Consecutive bytes of a CORE's memory written, the first at the lowest address (R11). -/
def State.storeBytes (s : State) (a : Nat) (bytes : List Byte) : State :=
  { s with mem := Memory.writeBytes s.params.font s.mem a bytes }

/-! ## Display -/

/-- The cell in column x and row y (R34). -/
def Display.cell (d : Display) (x : Fin 64) (y : Fin 32) : Bool := d[y][x]

/-- The display with the cell in column x and row y inverted: one XOR of a set sprite bit (R172). -/
def Display.flip (d : Display) (x : Fin 64) (y : Fin 32) : Display := d.set y (d[y].set x (!d[y][x]))

/-- `DISP[c]` by the flat index of R34, c = x + 64*y. -/
def Display.flat (d : Display) (c : Fin 2048) : Bool :=
  Display.cell d (Fin.ofNat 64 c.val) (Fin.ofNat 32 (c.val / 64))

/-! ## The bounds check and fault entry -/

/-- The address translator's check on `count` single-byte accesses from `base` up, made before the first of them:
effective addresses are unbounded integers, never wrapped, and the last must lie below 4096 (R57, R58, R166). -/
def dataInBounds (base count : Nat) : Bool := count = 0 || base + (count - 1) < Config.memSize

/-- Fault entry: the latch is written and nothing else is (R214, R215). -/
def State.latch (s : State) (kind : FaultKind) (cause : FaultCause) (info : Word) : State :=
  { s with fault := ⟨kind, cause, info⟩ }

/-- An OutOfBounds fault of the execute phase. `PC` already holds a + 2, and `FAULT.info` is the address a the
instruction was fetched from (R211, R212, R214). -/
def raiseOutOfBounds (cause : FaultCause) (s : State) : Result :=
  .next (s.latch .outOfBounds cause (s.pc - 2))

/-- An instruction that makes `count` single-byte accesses from `I` up: OutOfBounds(MEM_DATA) if the last address is
out of bounds, otherwise its effect (R163, R164, R165, R172). -/
def withData (count : Nat) (s : State) (effect : State → State) : Result :=
  if dataInBounds s.i.toNat count then .next (effect s) else raiseOutOfBounds .memData s

/-- A fault is latched: the CORE is halted until RESET (R191, R217). -/
def State.halted (s : State) : Bool := s.fault.kind ≠ .none

end Sys2Proof.Machine
end

