-- ==== Sys2Proof/Machine/Operands.lean ====
section
/-! DEFINITION. The operand forms: registers (R20), immediates (R82), register blocks (R21, R164), the program counter
of a skip (R127), the key levels (R33) and the random byte (R198). -/

namespace Sys2Proof.Machine

/-- `V[r]` (R20). -/
def State.reg (s : State) (r : Reg) : Byte := s.v[r]

/-- `V[r] <- b` (R20): no register is hardwired. -/
def State.setReg (s : State) (r : Reg) (b : Byte) : State := { s with v := s.v.set r b }

/-- A 12-bit immediate zero-extended to 16 bits, as it is written to `PC` or `I` (R82). -/
def wordOfNNN (nnn : BitVec 12) : Word := nnn.setWidth 16

/-- A register's byte zero-extended to 16 bits (R129, R161, R162). -/
def wordOfByte (b : Byte) : Word := b.setWidth 16

/-- A skip: 2 more on `PC` if the condition holds, so exactly one instruction is passed over (R127). -/
def State.skipIf (s : State) (cond : Bool) : State := if cond then { s with pc := s.pc + 2 } else s

/-- The number of registers the register dump and load move: X + 1, or X where the parameter DUMP_LOAD_INCLUSIVE is
false (R7, R164, R165). -/
def State.blockCount (s : State) (x : Reg) : Nat := if s.params.dumpLoadInclusive then x.val + 1 else x.val

/-- The contents of `V[0]` up to the block's end, `V[0]` first (R21, R164). -/
def State.block (s : State) (count : Nat) : List Byte := s.v.toList.take count

/-- `V[r] <- MEM[I + r]` for every r below `count`; the registers above keep their values (R165). -/
def State.loadBlock (s : State) (count : Nat) : State :=
  { s with v := Vector.ofFn fun r : Fin 16 =>
      if r.val < count then s.byte (s.i.toNat + r.val) else s.v[r] }

/-- The key a byte names, when it is 15 or less: the index is not masked (R181, R182). -/
def keyOfByte (b : Byte) : Option Key := if h : b.toNat < 16 then some ⟨b.toNat, h⟩ else none

/-- `KEYS[k]` (R33). -/
def State.key (s : State) (k : Key) : Bool := s.keys[k]

/-- The lowest-indexed key that is down, if any (R183). -/
def State.lowestKey (s : State) : Option Key := (List.finRange 16).find? fun k => s.key k

/-- The 8-bit `rand` of this STEP: the command's argument when it names one, else the environment's free byte (R152,
R198; log entry 3). -/
def State.rand (s : State) : Byte := s.randIn.getD (Config.randByte s.draws)

/-- One draw is consumed, so the next free byte is another one (R152: exactly one byte is drawn per execution). -/
def State.drawn (s : State) : State := { s with draws := s.draws + 1 }

end Sys2Proof.Machine
end

