-- ==== Sys2Proof/Machine/Flags.lean ====
section
/-! DEFINITION. The flag computations: the five of the ALU (R147 to R151) and the order in which a result and its flag
are written (R12, R140). The collision flag of DRW is computed with the drawing, in Display.lean (R172). -/

namespace Sys2Proof.Machine

/-- Carry out of an 8-bit addition: the exact sum is above 255 (R147). -/
def carryOut (x y : Byte) : Bool := x.toNat + y.toNat > 255

/-- NOT borrow of `x - y`: x >= y, equality included (R148, R150). -/
def notBorrow (x y : Byte) : Bool := x.toNat ≥ y.toNat

/-- The bit a right shift by one moves out: old bit 0 (R149). -/
def shiftedOutRight (x : Byte) : Bool := x.getLsbD 0

/-- The bit a left shift by one moves out: old bit 7 (R151). -/
def shiftedOutLeft (x : Byte) : Bool := x.getLsbD 7

/-- A flag as the byte `VF` holds: 0 or 1 (R23). -/
def flagByte (f : Bool) : Byte := if f then 1 else 0

/-- `VF <- f`: always written, never left as it was (R23). -/
def State.setFlag (s : State) (f : Bool) : State := s.setReg Reg.flag (flagByte f)

/-- A result to `V[r]` first and the flag to `VF` second, so that for r = 15 the flag remains (R12, R140, D7). -/
def State.setResultAndFlag (s : State) (r : Reg) (result : Byte) (f : Bool) : State :=
  (s.setReg r result).setFlag f

end Sys2Proof.Machine
end

