-- ==== Sys2Proof/Machine/Alu.lean ====
section
/-! DEFINITION. Register load, arithmetic, logic, shift and random instructions (42_alu.md). None of them changes `PC`
and none can fault (R140). -/

namespace Sys2Proof.Machine

/-- `LD Vx, NN` (R141). -/
def execLdVxNn (x : Reg) (nn : Byte) (s : State) : Result := .next (s.setReg x nn)

/-- `ADD Vx, NN`: modulo 256, no flag effect (R142). -/
def execAddVxNn (x : Reg) (nn : Byte) (s : State) : Result := .next (s.setReg x (s.reg x + nn))

/-- `LD Vx, Vy` (R143). -/
def execLdVxVy (x y : Reg) (s : State) : Result := .next (s.setReg x (s.reg y))

/-- `OR Vx, Vy`: no flag effect (R144). -/
def execOrVxVy (x y : Reg) (s : State) : Result := .next (s.setReg x (s.reg x ||| s.reg y))

/-- `AND Vx, Vy`: no flag effect (R145). -/
def execAndVxVy (x y : Reg) (s : State) : Result := .next (s.setReg x (s.reg x &&& s.reg y))

/-- `XOR Vx, Vy`: no flag effect (R146). -/
def execXorVxVy (x y : Reg) (s : State) : Result := .next (s.setReg x (s.reg x ^^^ s.reg y))

/-- `ADD Vx, Vy`: the sum modulo 256 and the carry (R147). -/
def execAddVxVy (x y : Reg) (s : State) : Result :=
  .next (s.setResultAndFlag x (s.reg x + s.reg y) (carryOut (s.reg x) (s.reg y)))

/-- `SUB Vx, Vy`: `V[X] - V[Y]` modulo 256 and NOT borrow (R148). -/
def execSubVxVy (x y : Reg) (s : State) : Result :=
  .next (s.setResultAndFlag x (s.reg x - s.reg y) (notBorrow (s.reg x) (s.reg y)))

/-- `SHR Vx`: in place, by one, bit 7 becomes 0; the `Y` field is ignored (R85, R149). -/
def execShrVx (x _y : Reg) (s : State) : Result :=
  .next (s.setResultAndFlag x (s.reg x >>> 1) (shiftedOutRight (s.reg x)))

/-- `SUBN Vx, Vy`: `V[Y] - V[X]` modulo 256 and NOT borrow of it (R150). -/
def execSubnVxVy (x y : Reg) (s : State) : Result :=
  .next (s.setResultAndFlag x (s.reg y - s.reg x) (notBorrow (s.reg y) (s.reg x)))

/-- `SHL Vx`: in place, by one, bit 0 becomes 0; the `Y` field is ignored (R85, R151). -/
def execShlVx (x _y : Reg) (s : State) : Result :=
  .next (s.setResultAndFlag x (s.reg x <<< 1) (shiftedOutLeft (s.reg x)))

/-- `RND Vx, NN`: `rand & NN`, no flag effect, one draw consumed (R152). -/
def execRndVxNn (x : Reg) (nn : Byte) (s : State) : Result := .next ((s.setReg x (s.rand &&& nn)).drawn)

end Sys2Proof.Machine
end

