-- ==== Sys2Proof/Machine/ControlFlow.lean ====
section
/-! DEFINITION. NOP (40_step_cycle.md) and the control transfer instructions (41_control_flow.md). `PC` already holds
a + 2 (R111). -/

namespace Sys2Proof.Machine

/-- `NOP`: nothing (R114). -/
def execNop (s : State) : Result := .next s

/-- `RET`: pop the stack into `PC`; the popped entry keeps its value; OutOfBounds(STACK_UNDERFLOW) when the stack is
empty (R30, R120). -/
def execRet (s : State) : Result :=
  if h : 0 < s.sp.val then
    have hsp : s.sp.val - 1 < 16 := by have := s.sp.isLt; omega
    .next { s with sp := ⟨s.sp.val - 1, by omega⟩, pc := s.stack[s.sp.val - 1] }
  else raiseOutOfBounds .stackUnderflow s

/-- `JP NNN` (R121). -/
def execJp (nnn : BitVec 12) (s : State) : Result := .next { s with pc := wordOfNNN nnn }

/-- `CALL NNN`: push `PC`, the address of the next instruction, then jump; OutOfBounds(STACK_OVERFLOW) when the stack
is full (R30, R122). -/
def execCall (nnn : BitVec 12) (s : State) : Result :=
  if h : s.sp.val < 16 then
    .next { s with stack := s.stack.set s.sp.val s.pc, sp := ⟨s.sp.val + 1, by omega⟩, pc := wordOfNNN nnn }
  else raiseOutOfBounds .stackOverflow s

/-- `SE Vx, NN` (R123). -/
def execSeVxNn (x : Reg) (nn : Byte) (s : State) : Result := .next (s.skipIf (s.reg x == nn))

/-- `SNE Vx, NN` (R124). -/
def execSneVxNn (x : Reg) (nn : Byte) (s : State) : Result := .next (s.skipIf (s.reg x != nn))

/-- `SE Vx, Vy` (R125). -/
def execSeVxVy (x y : Reg) (s : State) : Result := .next (s.skipIf (s.reg x == s.reg y))

/-- `SNE Vx, Vy` (R126). -/
def execSneVxVy (x y : Reg) (s : State) : Result := .next (s.skipIf (s.reg x != s.reg y))

/-- `JP V0, NNN`: the sum is loaded as it is, not reduced modulo 4096; the register is always `V[0]` (R21, R129). -/
def execJpV0 (nnn : BitVec 12) (s : State) : Result :=
  .next { s with pc := wordOfNNN nnn + wordOfByte (s.reg 0) }

end Sys2Proof.Machine
end

