-- ==== Sys2Proof/Machine/Display.lean ====
section
/-! DEFINITION. The display instructions (44_display.md): CLS and DRW, the latter as the pixel loop of R172. -/

namespace Sys2Proof.Machine

/-- `CLS`: all cells off; `VF` is not written (R171). -/
def execCls (s : State) : Result := .next { s with disp := Display.blank }

/-- The display while a sprite is drawn, with the collision accumulated so far (R172). -/
structure Canvas where
  disp : Display
  hit : Bool
  deriving DecidableEq, Repr

/-- One set bit of the sprite at (px mod 64, py mod 32): XOR the cell, and a hit if it was on (R172). -/
def Canvas.pixel (c : Canvas) (px py : Nat) : Canvas :=
  { disp := Display.flip c.disp (Fin.ofNat 64 px) (Fin.ofNat 32 py)
    hit := c.hit || Display.cell c.disp (Fin.ofNat 64 px) (Fin.ofNat 32 py) }

/-- Whether column `col` of a sprite row is set: bit 7 is the leftmost pixel (R53, R172). -/
def spriteBit (b : Byte) (col : Nat) : Bool := b.getLsbD (7 - col)

/-- One row of the sprite, columns 0 to 7; a clear bit changes nothing (R172). -/
def Canvas.row (c : Canvas) (b : Byte) (x0 py : Nat) : Canvas :=
  (List.range 8).foldl (fun c col => if spriteBit b col then c.pixel (x0 + col) py else c) c

/-- The rows of the sprite, 0 to n-1 (R172). -/
def Canvas.sprite (c : Canvas) (rows : Nat → Byte) (x0 y0 n : Nat) : Canvas :=
  (List.range n).foldl (fun c r => c.row (rows r) x0 (y0 + r)) c

/-- Row r of the sprite: the byte at `I + r` (R172). -/
def State.spriteRow (s : State) (r : Nat) : Byte := s.byte (s.i.toNat + r)

/-- The canvas after DRW, from operands sampled once, before any write (R12, R172). -/
def State.canvasOf (s : State) (x y : Reg) (n : BitVec 4) : Canvas :=
  Canvas.sprite ⟨s.disp, false⟩ s.spriteRow (s.reg x).toNat (s.reg y).toNat n.toNat

/-- `DRW Vx, Vy, N`: the sprite XORed onto the display with wrap-around, then `VF` = collision;
OutOfBounds(MEM_DATA) if the last row's address is out of bounds (R172). -/
def execDrw (x y : Reg) (n : BitVec 4) (s : State) : Result :=
  withData n.toNat s fun s => ({ s with disp := (s.canvasOf x y n).disp }).setFlag (s.canvasOf x y n).hit

end Sys2Proof.Machine
end

