-- ==== Sys2Proof/Machine/IndexMemory.lean ====
section
/-! DEFINITION. The index register and memory instructions (43_index_memory.md). None of them changes `PC`, writes a
flag, or (but for the three that write `I` by name) changes `I` (R166, D6). -/

namespace Sys2Proof.Machine

/-- `LD I, NNN` (R160). -/
def execLdINnn (nnn : BitVec 12) (s : State) : Result := .next { s with i := wordOfNNN nnn }

/-- `ADD I, Vx`: modulo 65536, no flag effect (R161). -/
def execAddIVx (x : Reg) (s : State) : Result := .next { s with i := s.i + wordOfByte (s.reg x) }

/-- `LD F, Vx`: 5 times `V[X]`, not masked to 4 bits (R162). -/
def execLdFVx (x : Reg) (s : State) : Result := .next { s with i := 5 * wordOfByte (s.reg x) }

/-- The hundreds, tens and ones digits of a byte, in the order they are stored (R163). -/
def decimalDigits (b : Byte) : List Byte :=
  [BitVec.ofNat 8 (b.toNat / 100), BitVec.ofNat 8 (b.toNat / 10 % 10), BitVec.ofNat 8 (b.toNat % 10)]

/-- `LD B, Vx`: the three digits at I, I+1, I+2 (R163). -/
def execLdBVx (x : Reg) (s : State) : Result :=
  withData 3 s fun s => s.storeBytes s.i.toNat (decimalDigits (s.reg x))

/-- `LD [I], Vx`, the register dump: `V[0]` up to the bound the parameter gives, one byte each from I up (R164). -/
def execLdMemVx (x : Reg) (s : State) : Result :=
  withData (s.blockCount x) s fun s => s.storeBytes s.i.toNat (s.block (s.blockCount x))

/-- `LD Vx, [I]`, the register load: the same registers from the same bytes (R165). -/
def execLdVxMem (x : Reg) (s : State) : Result :=
  withData (s.blockCount x) s fun s => s.loadBlock (s.blockCount x)

end Sys2Proof.Machine
end

