-- ==== Sys2Proof/Machine/KeysTimers.lean ====
section
/-! DEFINITION. The key and timer instructions (45_keys_timers.md). None of them writes the flag (R180). -/

namespace Sys2Proof.Machine

/-- A skip on the level of the key `V[X]` names: OutOfBounds(KEY_INDEX) when `V[X]` is above 15 (R181, R182, D12). -/
def skipOnKey (x : Reg) (level : Bool) (s : State) : Result :=
  match keyOfByte (s.reg x) with
  | some k => .next (s.skipIf (s.key k == level))
  | none => raiseOutOfBounds .keyIndex s

/-- `SKP Vx` (R181). -/
def execSkp (x : Reg) (s : State) : Result := skipOnKey x true s

/-- `SKNP Vx` (R182). -/
def execSknp (x : Reg) (s : State) : Result := skipOnKey x false s

/-- `LD Vx, K`: with no key down, `PC` goes back to the instruction itself and nothing else changes; otherwise the
lowest-indexed key that is down goes to `V[X]` (R183). -/
def execLdVxK (x : Reg) (s : State) : Result :=
  match s.lowestKey with
  | some k => .next (s.setReg x (BitVec.ofNat 8 k.val))
  | none => .next { s with pc := s.pc - 2 }

/-- `LD Vx, DT` (R184). -/
def execLdVxDt (x : Reg) (s : State) : Result := .next (s.setReg x s.dt)

/-- `LD DT, Vx` (R185). -/
def execLdDtVx (x : Reg) (s : State) : Result := .next { s with dt := s.reg x }

/-- `LD ST, Vx` (R186). -/
def execLdStVx (x : Reg) (s : State) : Result := .next { s with st := s.reg x }

end Sys2Proof.Machine
end

