-- ==== Sys2Proof/Syntax.lean ====
section
/-! DEFINITION. The 35 instructions, one constructor per row of spec/opcode_table.json, in the order of R90. -/

namespace Sys2Proof

/-- An instruction with its fields taken out of the word (R9, R82, R90). `x` and `y` are register numbers, `nn` an
8-bit immediate, `nnn` a 12-bit immediate, `n` a number of sprite rows. -/
inductive Instr where
  /-- `0000` NOP (R114). -/
  | nop
  /-- `00E0` CLS (R171). -/
  | cls
  /-- `00EE` RET (R120). -/
  | ret
  /-- `1NNN` JP NNN (R121). -/
  | jp (nnn : BitVec 12)
  /-- `2NNN` CALL NNN (R122). -/
  | call (nnn : BitVec 12)
  /-- `3XNN` SE Vx, NN (R123). -/
  | seVxNn (x : Reg) (nn : Byte)
  /-- `4XNN` SNE Vx, NN (R124). -/
  | sneVxNn (x : Reg) (nn : Byte)
  /-- `5XY0` SE Vx, Vy (R125). -/
  | seVxVy (x y : Reg)
  /-- `6XNN` LD Vx, NN (R141). -/
  | ldVxNn (x : Reg) (nn : Byte)
  /-- `7XNN` ADD Vx, NN (R142). -/
  | addVxNn (x : Reg) (nn : Byte)
  /-- `8XY0` LD Vx, Vy (R143). -/
  | ldVxVy (x y : Reg)
  /-- `8XY1` OR Vx, Vy (R144). -/
  | orVxVy (x y : Reg)
  /-- `8XY2` AND Vx, Vy (R145). -/
  | andVxVy (x y : Reg)
  /-- `8XY3` XOR Vx, Vy (R146). -/
  | xorVxVy (x y : Reg)
  /-- `8XY4` ADD Vx, Vy (R147). -/
  | addVxVy (x y : Reg)
  /-- `8XY5` SUB Vx, Vy (R148). -/
  | subVxVy (x y : Reg)
  /-- `8XY6` SHR Vx (R149). The field `y` is in the word and is ignored (R85). -/
  | shrVx (x y : Reg)
  /-- `8XY7` SUBN Vx, Vy (R150). -/
  | subnVxVy (x y : Reg)
  /-- `8XYE` SHL Vx (R151). The field `y` is in the word and is ignored (R85). -/
  | shlVx (x y : Reg)
  /-- `9XY0` SNE Vx, Vy (R126). -/
  | sneVxVy (x y : Reg)
  /-- `ANNN` LD I, NNN (R160). -/
  | ldINnn (nnn : BitVec 12)
  /-- `BNNN` JP V0, NNN (R129). -/
  | jpV0 (nnn : BitVec 12)
  /-- `CXNN` RND Vx, NN (R152). -/
  | rndVxNn (x : Reg) (nn : Byte)
  /-- `DXYN` DRW Vx, Vy, N (R172). -/
  | drw (x y : Reg) (n : BitVec 4)
  /-- `EX9E` SKP Vx (R181). -/
  | skp (x : Reg)
  /-- `EXA1` SKNP Vx (R182). -/
  | sknp (x : Reg)
  /-- `FX07` LD Vx, DT (R184). -/
  | ldVxDt (x : Reg)
  /-- `FX0A` LD Vx, K (R183). -/
  | ldVxK (x : Reg)
  /-- `FX15` LD DT, Vx (R185). -/
  | ldDtVx (x : Reg)
  /-- `FX18` LD ST, Vx (R186). -/
  | ldStVx (x : Reg)
  /-- `FX1E` ADD I, Vx (R161). -/
  | addIVx (x : Reg)
  /-- `FX29` LD F, Vx (R162). -/
  | ldFVx (x : Reg)
  /-- `FX33` LD B, Vx (R163). -/
  | ldBVx (x : Reg)
  /-- `FX55` LD [I], Vx, the register dump (R164). -/
  | ldMemVx (x : Reg)
  /-- `FX65` LD Vx, [I], the register load (R165). -/
  | ldVxMem (x : Reg)
  deriving DecidableEq, Repr

end Sys2Proof
end

