-- ==== Sys2Proof/WellFormed.lean ====
section
/-! DEFINITION. What is well formed: the opcode map of R90 as mask and match, the legal instruction words (R83, R84),
the program images LOAD accepts (R192), and instructions as terms. -/

namespace Sys2Proof

/-- One row of the opcode map of R90: the mnemonic as spec/opcode_table.json spells it, the mask of the fixed bits and
their value. -/
structure OpcodeRow where
  mnemonic : String
  mask : Word
  pattern : Word
  deriving DecidableEq, Repr

/-- A word matches a row when its fixed bits have the row's value (R83). -/
def OpcodeRow.accepts (r : OpcodeRow) (op : Word) : Bool := op &&& r.mask == r.pattern

/-- The row of R90 an instruction belongs to. -/
def Instr.row : Instr → OpcodeRow
  | .nop => ⟨"NOP", 0xFFFF, 0x0000⟩
  | .cls => ⟨"CLS", 0xFFFF, 0x00E0⟩
  | .ret => ⟨"RET", 0xFFFF, 0x00EE⟩
  | .jp _ => ⟨"JP_NNN", 0xF000, 0x1000⟩
  | .call _ => ⟨"CALL_NNN", 0xF000, 0x2000⟩
  | .seVxNn _ _ => ⟨"SE_Vx__NN", 0xF000, 0x3000⟩
  | .sneVxNn _ _ => ⟨"SNE_Vx__NN", 0xF000, 0x4000⟩
  | .seVxVy _ _ => ⟨"SE_Vx__Vy", 0xF00F, 0x5000⟩
  | .ldVxNn _ _ => ⟨"LD_Vx__NN", 0xF000, 0x6000⟩
  | .addVxNn _ _ => ⟨"ADD_Vx__NN", 0xF000, 0x7000⟩
  | .ldVxVy _ _ => ⟨"LD_Vx__Vy", 0xF00F, 0x8000⟩
  | .orVxVy _ _ => ⟨"OR_Vx__Vy", 0xF00F, 0x8001⟩
  | .andVxVy _ _ => ⟨"AND_Vx__Vy", 0xF00F, 0x8002⟩
  | .xorVxVy _ _ => ⟨"XOR_Vx__Vy", 0xF00F, 0x8003⟩
  | .addVxVy _ _ => ⟨"ADD_Vx__Vy", 0xF00F, 0x8004⟩
  | .subVxVy _ _ => ⟨"SUB_Vx__Vy", 0xF00F, 0x8005⟩
  | .shrVx _ _ => ⟨"SHR_Vx", 0xF00F, 0x8006⟩
  | .subnVxVy _ _ => ⟨"SUBN_Vx__Vy", 0xF00F, 0x8007⟩
  | .shlVx _ _ => ⟨"SHL_Vx", 0xF00F, 0x800E⟩
  | .sneVxVy _ _ => ⟨"SNE_Vx__Vy", 0xF00F, 0x9000⟩
  | .ldINnn _ => ⟨"LD_I__NNN", 0xF000, 0xA000⟩
  | .jpV0 _ => ⟨"JP_V0__NNN", 0xF000, 0xB000⟩
  | .rndVxNn _ _ => ⟨"RND_Vx__NN", 0xF000, 0xC000⟩
  | .drw _ _ _ => ⟨"DRW_Vx__Vy__N", 0xF000, 0xD000⟩
  | .skp _ => ⟨"SKP_Vx", 0xF0FF, 0xE09E⟩
  | .sknp _ => ⟨"SKNP_Vx", 0xF0FF, 0xE0A1⟩
  | .ldVxDt _ => ⟨"LD_Vx__DT", 0xF0FF, 0xF007⟩
  | .ldVxK _ => ⟨"LD_Vx__K", 0xF0FF, 0xF00A⟩
  | .ldDtVx _ => ⟨"LD_DT__Vx", 0xF0FF, 0xF015⟩
  | .ldStVx _ => ⟨"LD_ST__Vx", 0xF0FF, 0xF018⟩
  | .addIVx _ => ⟨"ADD_I__Vx", 0xF0FF, 0xF01E⟩
  | .ldFVx _ => ⟨"LD_F__Vx", 0xF0FF, 0xF029⟩
  | .ldBVx _ => ⟨"LD_B__Vx", 0xF0FF, 0xF033⟩
  | .ldMemVx _ => ⟨"LD__I___Vx", 0xF0FF, 0xF055⟩
  | .ldVxMem _ => ⟨"LD_Vx___I", 0xF0FF, 0xF065⟩

/-- Rows 1 to 10 of R90. -/
def opcodeRowsLow : List OpcodeRow :=
  [Instr.row .nop, Instr.row .cls, Instr.row .ret, Instr.row (.jp 0), Instr.row (.call 0),
   Instr.row (.seVxNn 0 0), Instr.row (.sneVxNn 0 0), Instr.row (.seVxVy 0 0), Instr.row (.ldVxNn 0 0),
   Instr.row (.addVxNn 0 0)]

/-- Rows 11 to 19 of R90, the 8xxx group. -/
def opcodeRowsAlu : List OpcodeRow :=
  [Instr.row (.ldVxVy 0 0), Instr.row (.orVxVy 0 0), Instr.row (.andVxVy 0 0), Instr.row (.xorVxVy 0 0),
   Instr.row (.addVxVy 0 0), Instr.row (.subVxVy 0 0), Instr.row (.shrVx 0 0), Instr.row (.subnVxVy 0 0),
   Instr.row (.shlVx 0 0)]

/-- Rows 20 to 35 of R90. -/
def opcodeRowsHigh : List OpcodeRow :=
  [Instr.row (.sneVxVy 0 0), Instr.row (.ldINnn 0), Instr.row (.jpV0 0), Instr.row (.rndVxNn 0 0),
   Instr.row (.drw 0 0 0), Instr.row (.skp 0), Instr.row (.sknp 0), Instr.row (.ldVxDt 0), Instr.row (.ldVxK 0),
   Instr.row (.ldDtVx 0), Instr.row (.ldStVx 0), Instr.row (.addIVx 0), Instr.row (.ldFVx 0), Instr.row (.ldBVx 0),
   Instr.row (.ldMemVx 0), Instr.row (.ldVxMem 0)]

/-- The complete opcode map: the 35 rows of R90 in their order. -/
def opcodeMap : List OpcodeRow := opcodeRowsLow ++ opcodeRowsAlu ++ opcodeRowsHigh

/-- A well-formed instruction word: it matches a row of R90; every other word is illegal (R83, R84, R91). -/
def legalWord (op : Word) : Bool := opcodeMap.any fun r => r.accepts op

/-- A well-formed program image: LOAD's precondition `0x200 + len <= 4096` (R192). -/
def loadFits (bytes : List Byte) : Bool := Config.loadAddr + bytes.length ≤ Config.memSize

/-- A well-formed instruction term: its row is a row of the opcode map. The types of the operands bound every field to
the width the encoding gives it (R82), so nothing else is left to check and every term passes (log entry 12). -/
def Instr.wellFormed (i : Instr) : Bool := opcodeMap.contains i.row

end Sys2Proof
end

