-- ==== Sys2Proof/Decode.lean ====
section
/-! DEFINITION. Decoding an instruction word (R83, R84, R90), total on all 65536 words, and the encoder written from
the same table. A word the opcode map does not have is answered `none`: UNKNOWN (R83), which the step turns into the
UnknownOpcode fault (R113). -/

namespace Sys2Proof

/-! The fields of an instruction word (R9). -/

/-- `n3 = op[15:12]`. -/
def highNibble (op : Word) : BitVec 4 := op.extractLsb' 12 4

/-- `X = op[11:8]`. -/
def fieldX (op : Word) : Reg := Reg.ofBits (op.extractLsb' 8 4)

/-- `Y = op[7:4]`. -/
def fieldY (op : Word) : Reg := Reg.ofBits (op.extractLsb' 4 4)

/-- `N = op[3:0]`. -/
def fieldN (op : Word) : BitVec 4 := op.extractLsb' 0 4

/-- `NN = op[7:0]`. -/
def fieldNN (op : Word) : Byte := op.extractLsb' 0 8

/-- `NNN = op[11:0]`. -/
def fieldNNN (op : Word) : BitVec 12 := op.extractLsb' 0 12

/-- Words with high nibble 0: only 0x0000, 0x00E0 and 0x00EE are instructions (R84). -/
def decodeFixed (op : Word) : Option Instr :=
  if op = 0x0000 then some .nop
  else if op = 0x00E0 then some .cls
  else if op = 0x00EE then some .ret
  else none

/-- Words with high nibble 8, told apart by the low nibble (R84, R90 rows 11 to 19). -/
def decodeAlu (op : Word) : Option Instr :=
  match (fieldN op).toNat with
  | 0x0 => some (.ldVxVy (fieldX op) (fieldY op))
  | 0x1 => some (.orVxVy (fieldX op) (fieldY op))
  | 0x2 => some (.andVxVy (fieldX op) (fieldY op))
  | 0x3 => some (.xorVxVy (fieldX op) (fieldY op))
  | 0x4 => some (.addVxVy (fieldX op) (fieldY op))
  | 0x5 => some (.subVxVy (fieldX op) (fieldY op))
  | 0x6 => some (.shrVx (fieldX op) (fieldY op))
  | 0x7 => some (.subnVxVy (fieldX op) (fieldY op))
  | 0xE => some (.shlVx (fieldX op) (fieldY op))
  | _ => none

/-- Words with high nibble E, told apart by the low byte (R84, R90 rows 25 and 26). -/
def decodeKeySkip (op : Word) : Option Instr :=
  if fieldNN op = 0x9E then some (.skp (fieldX op))
  else if fieldNN op = 0xA1 then some (.sknp (fieldX op))
  else none

/-- Words with high nibble F, told apart by the low byte (R84, R90 rows 27 to 35). -/
def decodeMisc (op : Word) : Option Instr :=
  if fieldNN op = 0x07 then some (.ldVxDt (fieldX op))
  else if fieldNN op = 0x0A then some (.ldVxK (fieldX op))
  else if fieldNN op = 0x15 then some (.ldDtVx (fieldX op))
  else if fieldNN op = 0x18 then some (.ldStVx (fieldX op))
  else if fieldNN op = 0x1E then some (.addIVx (fieldX op))
  else if fieldNN op = 0x29 then some (.ldFVx (fieldX op))
  else if fieldNN op = 0x33 then some (.ldBVx (fieldX op))
  else if fieldNN op = 0x55 then some (.ldMemVx (fieldX op))
  else if fieldNN op = 0x65 then some (.ldVxMem (fieldX op))
  else none

/-- The decoder: keyed first on the high nibble and refined by the remaining nibbles, with an explicit default that is
UNKNOWN and never a no-op (R83, R84, R90, R91). -/
def decode (op : Word) : Option Instr :=
  match (highNibble op).toNat with
  | 0x0 => decodeFixed op
  | 0x1 => some (.jp (fieldNNN op))
  | 0x2 => some (.call (fieldNNN op))
  | 0x3 => some (.seVxNn (fieldX op) (fieldNN op))
  | 0x4 => some (.sneVxNn (fieldX op) (fieldNN op))
  | 0x5 => if fieldN op = 0 then some (.seVxVy (fieldX op) (fieldY op)) else none
  | 0x6 => some (.ldVxNn (fieldX op) (fieldNN op))
  | 0x7 => some (.addVxNn (fieldX op) (fieldNN op))
  | 0x8 => decodeAlu op
  | 0x9 => if fieldN op = 0 then some (.sneVxVy (fieldX op) (fieldY op)) else none
  | 0xA => some (.ldINnn (fieldNNN op))
  | 0xB => some (.jpV0 (fieldNNN op))
  | 0xC => some (.rndVxNn (fieldX op) (fieldNN op))
  | 0xD => some (.drw (fieldX op) (fieldY op) (fieldN op))
  | 0xE => decodeKeySkip op
  | 0xF => decodeMisc op
  | _ => none

/-- The instruction word of two bytes as memory holds them, high byte first (R52). -/
def wordOfBytes (high low : Byte) : Word := high ++ low

/-- The high byte of an instruction word, the one at the lower address (R52). -/
def wordHigh (op : Word) : Byte := op.extractLsb' 8 8

/-- The low byte of an instruction word, the one at the higher address (R52). -/
def wordLow (op : Word) : Byte := op.extractLsb' 0 8

/-- Decoding the first two bytes of a byte sequence and what is left after them (R52, R80). -/
def decodeBytes : List Byte → Option (Instr × List Byte)
  | high :: low :: rest => (decode (wordOfBytes high low)).map fun i => (i, rest)
  | _ => none

/-! The encoder: the formats of R81 and the rows of R90. -/

/-- Format NNN: opcode nibble and a 12-bit field (R81). -/
def encodeNNN (opcode : BitVec 4) (nnn : BitVec 12) : Word := opcode ++ nnn

/-- Format XNN: opcode nibble, register, 8-bit field (R81). -/
def encodeXNN (opcode : BitVec 4) (x : Reg) (nn : Byte) : Word := opcode ++ (x.toBits ++ nn)

/-- Formats XYF and XYN: opcode nibble, two registers, a last nibble (R81). -/
def encodeXYN (opcode : BitVec 4) (x y : Reg) (n : BitVec 4) : Word := opcode ++ (x.toBits ++ (y.toBits ++ n))

/-- The word of an instruction (R81, R90). -/
def encode : Instr → Word
  | .nop => 0x0000
  | .cls => 0x00E0
  | .ret => 0x00EE
  | .jp nnn => encodeNNN 0x1 nnn
  | .call nnn => encodeNNN 0x2 nnn
  | .seVxNn x nn => encodeXNN 0x3 x nn
  | .sneVxNn x nn => encodeXNN 0x4 x nn
  | .seVxVy x y => encodeXYN 0x5 x y 0x0
  | .ldVxNn x nn => encodeXNN 0x6 x nn
  | .addVxNn x nn => encodeXNN 0x7 x nn
  | .ldVxVy x y => encodeXYN 0x8 x y 0x0
  | .orVxVy x y => encodeXYN 0x8 x y 0x1
  | .andVxVy x y => encodeXYN 0x8 x y 0x2
  | .xorVxVy x y => encodeXYN 0x8 x y 0x3
  | .addVxVy x y => encodeXYN 0x8 x y 0x4
  | .subVxVy x y => encodeXYN 0x8 x y 0x5
  | .shrVx x y => encodeXYN 0x8 x y 0x6
  | .subnVxVy x y => encodeXYN 0x8 x y 0x7
  | .shlVx x y => encodeXYN 0x8 x y 0xE
  | .sneVxVy x y => encodeXYN 0x9 x y 0x0
  | .ldINnn nnn => encodeNNN 0xA nnn
  | .jpV0 nnn => encodeNNN 0xB nnn
  | .rndVxNn x nn => encodeXNN 0xC x nn
  | .drw x y n => encodeXYN 0xD x y n
  | .skp x => encodeXNN 0xE x 0x9E
  | .sknp x => encodeXNN 0xE x 0xA1
  | .ldVxDt x => encodeXNN 0xF x 0x07
  | .ldVxK x => encodeXNN 0xF x 0x0A
  | .ldDtVx x => encodeXNN 0xF x 0x15
  | .ldStVx x => encodeXNN 0xF x 0x18
  | .addIVx x => encodeXNN 0xF x 0x1E
  | .ldFVx x => encodeXNN 0xF x 0x29
  | .ldBVx x => encodeXNN 0xF x 0x33
  | .ldMemVx x => encodeXNN 0xF x 0x55
  | .ldVxMem x => encodeXNN 0xF x 0x65

/-- The bytes of an instruction as memory holds them, high byte first (R52, R80). -/
def encodeBytes (i : Instr) : List Byte := [wordHigh (encode i), wordLow (encode i)]

/-- The instruction word the host numbers as spec/opcode_table.json does: one 16-bit word, the bits above `nbits`
zero. -/
def tableWord (nbits w : Nat) : Word := BitVec.ofNat 16 (w % 2 ^ nbits)

/-- The instruction the decoder reads from the table's word `w` of `nbits` bits, laid out as two bytes, high byte at
the lower address (R52). -/
def decodeTableWord (nbits w : Nat) : Option Instr :=
  (decodeBytes [wordHigh (tableWord nbits w), wordLow (tableWord nbits w)]).map Prod.fst

end Sys2Proof
end

