-- ==== Sys2Proof/Machine/Fetch.lean ====
section
/-! DEFINITION. The front of a STEP: the halted check (R191), fetch (R110), advance (R111) and decode (R112), and
placing a word where the next fetch reads it. -/

namespace Sys2Proof.Machine

/-- What the front of a STEP comes to. -/
inductive Issue where
  /-- The STEP ends here with this state: the CORE is halted (R191), the fetch faulted (R110) or no instruction matches
  the word (R113). -/
  | ended (s : State)
  /-- The decoded instruction goes to the execute phase, `PC` already advanced (R111, R113). -/
  | run (i : Instr) (s : State)
  deriving DecidableEq, Repr

/-- Whether both bytes of the instruction at `PC` are in memory: a + 1 < 4096 (R110). -/
def State.fetchable (s : State) : Bool := s.pc.toNat + 1 < Config.memSize

/-- The instruction word at `PC`, high byte at the lower address, at any alignment (R27, R52, R110). -/
def State.fetchWord (s : State) : Word :=
  wordOfBytes (s.byte s.pc.toNat) (s.byte (s.pc.toNat + 1))

/-- `PC <- a + 2` (R111). -/
def State.advance (s : State) : State := { s with pc := s.pc + 2 }

/-- The STEP up to the execute phase (R115). -/
def State.issue (s : State) : Issue :=
  if s.halted then .ended s
  else if s.fetchable then
    match decode s.fetchWord with
    | some i => .run i s.advance
    | none => .ended (s.advance.latch .unknownOpcode .none s.fetchWord)
  else .ended (s.latch .outOfBounds .memFetch s.pc)

/-- A word stored at an address as an instruction, high byte at the lower address (R52). -/
def State.storeWord (s : State) (a : Nat) (op : Word) : State := s.storeBytes a [wordHigh op, wordLow op]

/-- The state with a word stored at `PC` and no fault latched, so that the very next STEP fetches it: what LOAD does
for a program at 0x200, done at `PC` (R192; log entry 8). Where `PC` is not fetchable there is no place for the word
and only the latch is cleared. -/
def State.placeWord (s : State) (op : Word) : State :=
  if s.fetchable then { s.storeWord s.pc.toNat op with fault := FaultLatch.clear }
  else { s with fault := FaultLatch.clear }

end Sys2Proof.Machine
end

