-- ==== Sys2Proof/Machine/Step.lean ====
section
/-! DEFINITION. One STEP command (R115, R191). -/

namespace Sys2Proof.Machine

/-- STEP: halted check, fetch, advance, decode, dispatch (R110 to R115, R191). -/
def step (s : State) : Host.Outcome State Fault Refusal :=
  match s.issue with
  | .ended t => .next t
  | .run i t => exec i t

/-- `s` with the table's word stored where `step` fetches its next instruction (`State.placeWord`). -/
def State.withFetchWord (s : State) (nbits w : Nat) : State := s.placeWord (tableWord nbits w)

end Sys2Proof.Machine
end

