-- ==== Sys2Proof/Machine/HostPort.lean ====
section
/-! DEFINITION. The command port and the outputs (48_host_operations.md): what the host can do between two STEPs and
what it can read. The one command at a time is a constructor of `Command` (R190). -/

namespace Sys2Proof.Machine

/-- A command of the host (R190). `KEY`'s index is 4 bits, so it is always in bounds (R195). -/
inductive Command where
  /-- `RESET` (R193). -/
  | reset
  /-- `LOAD(bytes)` (R192). -/
  | load (bytes : List Byte)
  /-- `STEP(rand)` (R191, R198). -/
  | step (rand : Byte)
  /-- `TIMER_TICK` (R194). -/
  | timerTick
  /-- `KEY(index, pressed)` (R195). -/
  | key (index : Key) (pressed : Bool)
  deriving DecidableEq, Repr

/-- RESET: every piece of the CORE's state to its reset value, the parameters kept (R7, R193, R39). The source of randomness is outside the CORE
and is not reset (R198), so the model's draw counter goes on (log entry 3). -/
def resetCommand (s : State) : State := { State.resetWith s.params with draws := s.draws }

/-- LOAD: the bytes from 0x200 up, and nothing else; LoadOverflow, with no byte written, when they do not fit (R192).
It is accepted in every state and does not clear the latch; an overflowing LOAD overwrites it (R217, R218). -/
def loadCommand (bytes : List Byte) (s : State) : State :=
  if Config.loadAddr + bytes.length > Config.memSize then s.latch .loadOverflow .none 0
  else s.storeBytes Config.loadAddr bytes

/-- A timer lowered by one, floored at 0 (R194). -/
def tickDown (t : Byte) : Byte := if t = 0 then 0 else t - 1

/-- TIMER_TICK: the tone cue, then both timers (R194). -/
def timerTickCommand (s : State) : State :=
  { s with toneCue := s.st == 1, dt := tickDown s.dt, st := tickDown s.st }

/-- KEY: the level of one key (R195). -/
def keyCommand (index : Key) (pressed : Bool) (s : State) : State := { s with keys := s.keys.set index pressed }

/-- The state with the `rand` argument of a STEP(rand) presented, or taken away (R191, R198). -/
def State.present (s : State) (rand : Option Byte) : State := { s with randIn := rand }

/-- STEP(rand): one STEP with the host's byte as its random input, which only `RND` consumes (R191, R198). -/
def stepCommand (rand : Byte) (s : State) : Result :=
  match step (s.present (some rand)) with
  | .next t => .next (t.present none)
  | .fault r => .fault r
  | .refused r => .refused r

/-- One command, performed completely before the next (R190). -/
def perform : Command → State → Result
  | .reset, s => .next (resetCommand s)
  | .load bytes, s => .next (loadCommand bytes s)
  | .step rand, s => stepCommand rand s
  | .timerTick, s => .next (timerTickCommand s)
  | .key index pressed, s => .next (keyCommand index pressed s)

/-! ## Outputs: readable between any two commands, the read changes nothing -/

/-- The display output: cell (x, y), `DISP[x + 64*y]` (R196). -/
def State.displayOutput (s : State) (x : Fin 64) (y : Fin 32) : Bool := Display.cell s.disp x y

/-- The `sound_timer` output: the value of `ST` (R197). -/
def State.soundTimerOutput (s : State) : Byte := s.st

/-- The `tone_cue` output (R197). -/
def State.toneCueOutput (s : State) : Bool := s.toneCue

/-- The code of `FAULT.kind`, 2 bits (R36, R210). -/
def FaultKind.code : FaultKind → BitVec 2
  | .none => 0
  | .outOfBounds => 1
  | .unknownOpcode => 2
  | .loadOverflow => 3

/-- The code of `FAULT.cause`, 3 bits (R36, R211). -/
def FaultCause.code : FaultCause → BitVec 3
  | .none => 0
  | .memFetch => 1
  | .memData => 2
  | .stackOverflow => 3
  | .stackUnderflow => 4
  | .keyIndex => 5

/-- The fault output: kind, cause and info as the host reads them (R197, R212). -/
def State.faultOutput (s : State) : BitVec 2 × BitVec 3 × Word :=
  (s.fault.kind.code, s.fault.cause.code, s.fault.info)

end Sys2Proof.Machine
end

