-- ==== Sys2Proof/Safety.lean ====
section
/-! DEFINITION. What counts as a safe run, the invariant of the machine, and the frames and shapes the statements are
written with. -/

namespace Sys2Proof.Machine

/-! ## Safe runs and the invariant -/

/-- A good state: no fault is latched. A faulted state is never the good end of a run (R217). -/
abbrev State.Good (s : State) : Prop := s.fault.kind = .none

/-- The latch holds only what the fault tables allow: info 0 without a fault and for LoadOverflow, a cause exactly for
OutOfBounds (R36, R210, R211, R212). -/
abbrev FaultLatch.Consistent (f : FaultLatch) : Prop :=
  (f.kind = .none → f.info = 0) ∧ (f.kind = .outOfBounds ↔ f.cause ≠ .none) ∧ (f.kind = .loadOverflow → f.info = 0)

/-- Memory is in canonical form. -/
abbrev State.MemWf (s : State) : Prop := Memory.wf s.params.font s.mem = true

/-- The invariant of the CORE: memory in canonical form, `PC` at most 0x10FE (R28), every stack entry at most 4096
(R120, R122) and a consistent latch. -/
abbrev State.Inv (s : State) : Prop :=
  s.MemWf ∧ s.pc.toNat ≤ 0x10FE ∧ (∀ j : Fin 16, s.stack[j].toNat ≤ 4096) ∧ s.fault.Consistent

/-- The states the host can bring a CORE with any parameters to: reset, then any sequence of commands (R7, R190,
R199). -/
inductive Reachable : State → Prop where
  | reset (p : Parameters) : Reachable (State.resetWith p)
  | command {s t : State} (c : Command) (hs : Reachable s) (h : perform c s = .next t) : Reachable t

/-- The end of a run at address e: no fault, `PC` = e, and the word there is a jump to e itself (R246, D25). -/
abbrev State.AtEnd (s : State) (e : BitVec 12) : Prop :=
  s.Good ∧ s.pc.toNat = e.toNat ∧ s.pc.toNat + 1 < 4096 ∧ decode s.fetchWord = some (.jp e)

/-! ## Frames -/

/-- Every byte of memory reads as before. -/
abbrev SameBytes (s t : State) : Prop := ∀ a, t.byte a = s.byte a

/-- Every byte of memory outside the `count` bytes from `base` up reads as before. -/
abbrev SameBytesOutside (base count : Nat) (s t : State) : Prop :=
  ∀ a, a < base ∨ base + count ≤ a → t.byte a = s.byte a

/-- Nothing but the general registers has changed: not `PC`, `I`, the stack, the timers, the keys, the display, the
latch, the tone cue, nor any byte of memory. -/
abbrev OnlyRegs (s t : State) : Prop := t = { s with v := t.v } ∧ SameBytes s t

/-- Nothing but `PC` has changed. -/
abbrev OnlyPc (s t : State) : Prop := t = { s with pc := t.pc } ∧ SameBytes s t

/-- Nothing but `I` has changed. -/
abbrev OnlyIndex (s t : State) : Prop := t = { s with i := t.i } ∧ SameBytes s t

/-- Nothing but memory has changed. -/
abbrev OnlyMem (s t : State) : Prop := t = { s with mem := t.mem }

/-- Nothing but the fault latch has changed. -/
abbrev OnlyFault (s t : State) : Prop := t = { s with fault := t.fault } ∧ SameBytes s t

/-- The latch holds an OutOfBounds fault with this cause. -/
abbrev OutOfBounds (cause : FaultCause) (t : State) : Prop := t.fault.kind = .outOfBounds ∧ t.fault.cause = cause

/-- From `s` to `t` an OutOfBounds fault with this cause is raised when the condition holds, and otherwise the latch is
as it was; so a good state ends with a fault exactly when it holds. -/
abbrev FaultsExactlyWhen (c : Prop) (cause : FaultCause) (s t : State) : Prop :=
  (c → OutOfBounds cause t) ∧ (¬ c → t.fault = s.fault) ∧ (s.Good → (¬ t.Good ↔ c))

/-- No general register but `x` has changed. -/
abbrev RegsBut (x : Reg) (s t : State) : Prop := ∀ r, r ≠ x → t.reg r = s.reg r

/-- No general register but `x` and `VF` has changed. -/
abbrev RegsButFlag (x : Reg) (s t : State) : Prop := ∀ r, r ≠ x → r ≠ 15 → t.reg r = s.reg r

/-! ## The sprite of DRW in closed form -/

/-- The sprite of the first `n` of `rows`, its corner at (x0, y0), has a set bit that falls on the cell in column x and
row y: a row is a byte, most significant bit first, and the cell of its column `col` is
((x0 + col) mod 64, (y0 + r) mod 32) (R172). -/
def SpriteCovers (rows : Nat → Byte) (x0 y0 n : Nat) (x : Fin 64) (y : Fin 32) : Prop :=
  ∃ r < n, ∃ col < 8, (rows r).getLsbD (7 - col) = true ∧
    x.val = (x0 + col) % 64 ∧ y.val = (y0 + r) % 32

end Sys2Proof.Machine
end

