-- ==== Sys2Proof/Certificates/Slice0/Obligations.lean ====
section
/-! DEFINITION. The statements for the provers, one `def Obligations.<Name> : Prop` each, from the numbered rules of
spec/. Where a clause rests on one of the spec's own decisions (D<n>) or on a choice of the model (a log entry), the
docstring says so. -/

open Sys2Proof Sys2Proof.Machine

/-! ## Decoding and encoding -/

/-- Decode and encode agree on every instruction, with every operand at every value its field admits (opcode map and
formats, 30_encoding.md; 31 of the patterns are the spec's decision D2). -/
def Obligations.EncodeThenDecodeGivesTheInstruction : Prop :=
  ∀ i : Instr, decode (encode i) = some i

/-- Each legal word has one meaning and none of its bits is dropped, the ignored `Y` of SHR and SHL included. -/
def Obligations.DecodedWordIsTheEncoding : Prop :=
  ∀ (op : Word) (i : Instr), decode op = some i → encode i = op

/-- The decoder is the opcode map read as mask and match: a word is UNKNOWN exactly when it matches no row, and the
instruction a word decodes to is one of a row the word matches (strictness is the spec's decision D3). -/
def Obligations.DecodeFollowsTheOpcodeMap : Prop :=
  ∀ op : Word,
    (decode op = none ↔ ∀ r ∈ opcodeMap, op &&& r.mask ≠ r.pattern) ∧
    (∀ i, decode op = some i → i.row ∈ opcodeMap ∧ op &&& i.row.mask = i.row.pattern)

/-- The decoder reads the words the source shows (0x0000, 0x00E0, 0x6005, 0x7001) and some of the spec's worked
examples as the spec does, and refuses the illegal words of table T0. -/
def Obligations.DecodeOfWordsTheSpecShows : Prop :=
  decode 0x0000 = some .nop ∧ decode 0x00E0 = some .cls ∧ decode 0x6005 = some (.ldVxNn 0 5) ∧
  decode 0x7001 = some (.addVxNn 0 1) ∧ decode 0x2210 = some (.call 0x210) ∧ decode 0x8126 = some (.shrVx 1 2) ∧
  decode 0xD125 = some (.drw 1 2 5) ∧ decode 0xE1A1 = some (.sknp 1) ∧ decode 0xF265 = some (.ldVxMem 2) ∧
  decode 0x5011 = none ∧ decode 0x00E1 = none ∧ decode 0x0123 = none ∧ decode 0x8128 = none ∧
  decode 0x9121 = none ∧ decode 0xE19F = none ∧ decode 0xF100 = none ∧ decode 0xF175 = none

/-! ## The step cycle -/

/-- R111 (with R110 and R112 as its premises): a STEP of a CORE with no fault runs the instruction the two bytes at
`PC` decode to, on the state with `PC` 2 further on, and that advance never overflows. -/
def Obligations.StepRunsTheDecodedInstruction : Prop :=
  ∀ (s : State) (i : Instr), s.Good → s.pc.toNat + 1 < 4096 →
    decode (wordOfBytes (s.byte s.pc.toNat) (s.byte (s.pc.toNat + 1))) = some i →
    step s = exec i { s with pc := s.pc + 2 } ∧ (s.pc + 2).toNat = s.pc.toNat + 2

/-- R110: the fetch reads the big-endian word at `PC`, at any alignment, or raises OutOfBounds(MEM_FETCH) with `PC`
and everything but the latch unchanged. -/
def Obligations.FetchReadsTheWordOrFaults : Prop :=
  ∀ s : State, s.Good →
    (4096 ≤ s.pc.toNat + 1 → ∃ t, step s = .next t ∧ OutOfBounds .memFetch t ∧ t.pc = s.pc ∧ OnlyFault s t) ∧
    (s.pc.toNat + 1 < 4096 → s.fetchWord.toNat =
      256 * (s.byte s.pc.toNat).toNat + (s.byte (s.pc.toNat + 1)).toNat)

/-- R113: a word that is UNKNOWN raises UnknownOpcode with the raw word, `PC` already at a + 2; any other word's
instruction is executed once. -/
def Obligations.UnknownWordRaisesUnknownOpcode : Prop :=
  ∀ s : State, s.Good → s.pc.toNat + 1 < 4096 →
    (decode s.fetchWord = none →
      step s = .next { s with pc := s.pc + 2, fault := ⟨.unknownOpcode, .none, s.fetchWord⟩ }) ∧
    (∀ i, decode s.fetchWord = some i → step s = exec i { s with pc := s.pc + 2 })

/-- While a fault is latched a STEP changes nothing, whatever its random input (the spec's decision D19; `randIn` is
the model's own field, log entry 3). -/
def Obligations.HaltedCoreIgnoresSteps : Prop :=
  ∀ s : State, ¬ s.Good →
    step s = .next s ∧ (s.randIn = none → ∀ rand, perform (.step rand) s = .next s)

/-- Every instruction answers a next state on every state, and so do every STEP and every command: no run is stuck
(R113's "always runs to completion"; that a fault is a next state is the model's reading, log entry 6). -/
def Obligations.EveryStepAndCommandCompletes : Prop :=
  (∀ (i : Instr) (s : State), ∃ t, exec i s = .next t) ∧ (∀ s : State, ∃ t, step s = .next t) ∧
  (∀ (c : Command) (s : State), ∃ t, perform c s = .next t)

/-! ## NOP and control flow (state after the advance: `PC` holds a + 2) -/

/-- R114: NOP changes nothing, its one word is 0x0000, and a STEP over it moves `PC` by 2 and nothing else. -/
def Obligations.NopOnlyAdvances : Prop :=
  (∀ s : State, exec .nop s = .next s) ∧ (∀ op : Word, decode op = some .nop ↔ op = 0x0000) ∧
  (∀ s : State, s.Good → s.pc.toNat + 1 < 4096 → s.fetchWord = 0x0000 → step s = .next { s with pc := s.pc + 2 })

/-- R120: RET pops the stack into `PC` and leaves the popped entry; with the stack empty it raises
OutOfBounds(STACK_UNDERFLOW) with `SP`, `STACK` and `PC` unchanged. -/
def Obligations.ReturnPopsTheStack : Prop :=
  ∀ s : State,
    (∀ h : 0 < s.sp.val, ∃ t, exec .ret s = .next t ∧ t.sp.val = s.sp.val - 1 ∧
      t.pc = s.stack[s.sp.val - 1]'(by have := s.sp.isLt; omega) ∧
      t = { s with sp := t.sp, pc := t.pc } ∧ SameBytes s t) ∧
    (s.sp.val = 0 → ∃ t, exec .ret s = .next t ∧ OutOfBounds .stackUnderflow t ∧
      t.sp = s.sp ∧ t.stack = s.stack ∧ t.pc = s.pc)

/-- R121: JP NNN puts the zero-extended immediate into `PC`. -/
def Obligations.JumpLoadsTheTarget : Prop :=
  ∀ (nnn : BitVec 12) (s : State), ∃ t, exec (.jp nnn) s = .next t ∧ t.pc.toNat = nnn.toNat ∧ OnlyPc s t

/-- R122: CALL pushes `PC` on the next free entry and jumps; with the stack full it raises
OutOfBounds(STACK_OVERFLOW) with `SP`, `STACK` and `PC` unchanged. -/
def Obligations.CallPushesThenJumps : Prop :=
  ∀ (nnn : BitVec 12) (s : State),
    (s.sp.val < 16 → ∃ t, exec (.call nnn) s = .next t ∧ t.sp.val = s.sp.val + 1 ∧ t.pc.toNat = nnn.toNat ∧
      (∀ j : Fin 16, t.stack[j] = if j.val = s.sp.val then s.pc else s.stack[j]) ∧
      t = { s with sp := t.sp, pc := t.pc, stack := t.stack } ∧ SameBytes s t) ∧
    (s.sp.val = 16 → ∃ t, exec (.call nnn) s = .next t ∧ OutOfBounds .stackOverflow t ∧
      t.sp = s.sp ∧ t.stack = s.stack ∧ t.pc = s.pc)

/-- R123 and R124: the skips on an immediate. -/
def Obligations.ImmediateSkips : Prop :=
  ∀ (x : Reg) (nn : Byte) (s : State),
    (∃ t, exec (.seVxNn x nn) s = .next t ∧ t.pc = (if s.reg x = nn then s.pc + 2 else s.pc) ∧ OnlyPc s t) ∧
    (∃ t, exec (.sneVxNn x nn) s = .next t ∧ t.pc = (if s.reg x = nn then s.pc else s.pc + 2) ∧ OnlyPc s t)

/-- R125 and R126: the skips on two registers; with X = Y the first always skips and the second never does. -/
def Obligations.RegisterSkips : Prop :=
  ∀ (x y : Reg) (s : State),
    (∃ t, exec (.seVxVy x y) s = .next t ∧ t.pc = (if s.reg x = s.reg y then s.pc + 2 else s.pc) ∧ OnlyPc s t ∧
      (x = y → t.pc = s.pc + 2)) ∧
    (∃ t, exec (.sneVxVy x y) s = .next t ∧ t.pc = (if s.reg x = s.reg y then s.pc else s.pc + 2) ∧ OnlyPc s t ∧
      (x = y → t.pc = s.pc))

/-- JP V0, NNN puts the sum of the immediate and `V[0]` into `PC`, not reduced modulo 4096 (R129; that large sums are
not masked is the spec's decision D24). -/
def Obligations.JumpV0AddsV0 : Prop :=
  ∀ (nnn : BitVec 12) (s : State), ∃ t, exec (.jpV0 nnn) s = .next t ∧
    t.pc.toNat = nnn.toNat + (s.reg 0).toNat ∧ t.pc.toNat ≤ 0x10FE ∧ OnlyPc s t

/-! ## ALU -/

/-- R141 and R143: direct assignment of an immediate and of a register. -/
def Obligations.RegisterLoads : Prop :=
  ∀ (x y : Reg) (nn : Byte) (s : State),
    (∃ t, exec (.ldVxNn x nn) s = .next t ∧ t.reg x = nn ∧ RegsBut x s t ∧ OnlyRegs s t) ∧
    (∃ t, exec (.ldVxVy x y) s = .next t ∧ t.reg x = s.reg y ∧ RegsBut x s t ∧ OnlyRegs s t)

/-- R142: addition of an immediate modulo 256; `VF` is not touched unless it is the destination. -/
def Obligations.AddImmediateHasNoFlag : Prop :=
  ∀ (x : Reg) (nn : Byte) (s : State), ∃ t, exec (.addVxNn x nn) s = .next t ∧
    (t.reg x).toNat = ((s.reg x).toNat + nn.toNat) % 256 ∧ RegsBut x s t ∧ OnlyRegs s t

/-- OR, AND and XOR of `V[X]` and `V[Y]`, bit by bit, with no flag effect (R144 to R146; the operands are the spec's
decision D4). -/
def Obligations.BitwiseOperations : Prop :=
  ∀ (x y : Reg) (s : State),
    (∃ t, exec (.orVxVy x y) s = .next t ∧ RegsBut x s t ∧ OnlyRegs s t ∧
      ∀ k < 8, (t.reg x).getLsbD k = ((s.reg x).getLsbD k || (s.reg y).getLsbD k)) ∧
    (∃ t, exec (.andVxVy x y) s = .next t ∧ RegsBut x s t ∧ OnlyRegs s t ∧
      ∀ k < 8, (t.reg x).getLsbD k = ((s.reg x).getLsbD k && (s.reg y).getLsbD k)) ∧
    (∃ t, exec (.xorVxVy x y) s = .next t ∧ RegsBut x s t ∧ OnlyRegs s t ∧
      ∀ k < 8, (t.reg x).getLsbD k = ((s.reg x).getLsbD k != (s.reg y).getLsbD k))

/-- R147: the sum modulo 256 and the carry; for X = 15 `VF` ends as the carry. -/
def Obligations.AddSetsTheCarry : Prop :=
  ∀ (x y : Reg) (s : State), ∃ t, exec (.addVxVy x y) s = .next t ∧
    (x ≠ 15 → (t.reg x).toNat = ((s.reg x).toNat + (s.reg y).toNat) % 256) ∧
    t.reg 15 = (if (s.reg x).toNat + (s.reg y).toNat > 255 then 1 else 0) ∧ RegsButFlag x s t ∧ OnlyRegs s t

/-- R148: the difference modulo 256 and NOT borrow; for X = 15 `VF` ends as the flag. -/
def Obligations.SubSetsNotBorrow : Prop :=
  ∀ (x y : Reg) (s : State), ∃ t, exec (.subVxVy x y) s = .next t ∧
    (x ≠ 15 → ((t.reg x).toNat : Int) = (((s.reg x).toNat : Int) - ((s.reg y).toNat : Int)) % 256) ∧
    t.reg 15 = (if (s.reg x).toNat ≥ (s.reg y).toNat then 1 else 0) ∧ RegsButFlag x s t ∧ OnlyRegs s t

/-- R150: the difference with the operands swapped, and NOT borrow of it. -/
def Obligations.SubnSetsNotBorrow : Prop :=
  ∀ (x y : Reg) (s : State), ∃ t, exec (.subnVxVy x y) s = .next t ∧
    (x ≠ 15 → ((t.reg x).toNat : Int) = (((s.reg y).toNat : Int) - ((s.reg x).toNat : Int)) % 256) ∧
    t.reg 15 = (if (s.reg y).toNat ≥ (s.reg x).toNat then 1 else 0) ∧ RegsButFlag x s t ∧ OnlyRegs s t

/-- R149: SHR in place, whatever the Y field, with the old bit 0 in `VF`. -/
def Obligations.ShiftRightKeepsTheBitInVf : Prop :=
  ∀ (x y : Reg) (s : State), ∃ t, exec (.shrVx x y) s = .next t ∧
    (x ≠ 15 → (t.reg x).toNat = (s.reg x).toNat / 2) ∧
    (t.reg 15).toNat = (s.reg x).toNat % 2 ∧ RegsButFlag x s t ∧ OnlyRegs s t

/-- R151: SHL in place, whatever the Y field, with the old bit 7 in `VF`. -/
def Obligations.ShiftLeftKeepsTheBitInVf : Prop :=
  ∀ (x y : Reg) (s : State), ∃ t, exec (.shlVx x y) s = .next t ∧
    (x ≠ 15 → (t.reg x).toNat = (2 * (s.reg x).toNat) % 256) ∧
    (t.reg 15).toNat = (s.reg x).toNat / 128 ∧ RegsButFlag x s t ∧ OnlyRegs s t

/-- RND writes `rand & NN`: the STEP's argument when the command names it, else the free byte of this draw, whatever
it is; exactly one draw is consumed and no flag is written (R152, the spec's decision D16; the free byte is log
entry 3). -/
def Obligations.RandomByteIsMasked : Prop :=
  ∀ (x : Reg) (nn : Byte) (s : State), ∃ t, exec (.rndVxNn x nn) s = .next t ∧
    (∀ rand, s.randIn = some rand → t.reg x = rand &&& nn) ∧
    (s.randIn = none → t.reg x = Config.randByte s.draws &&& nn) ∧ t.draws = s.draws + 1 ∧
    RegsBut x s t ∧ t = { s with v := t.v, draws := t.draws } ∧ SameBytes s t

/-! ## Index register and memory -/

/-- R160, R161 and R162: `I` gets the zero-extended immediate; `V[X]` is added to `I` modulo 65536 with no flag
written; `I` gets 5 times `V[X]`, not masked to 4 bits. -/
def Obligations.IndexRegisterWrites : Prop :=
  ∀ (nnn : BitVec 12) (x : Reg) (s : State),
    (∃ t, exec (.ldINnn nnn) s = .next t ∧ t.i.toNat = nnn.toNat ∧ OnlyIndex s t) ∧
    (∃ t, exec (.addIVx x) s = .next t ∧ t.i.toNat = (s.i.toNat + (s.reg x).toNat) % 65536 ∧ OnlyIndex s t) ∧
    (∃ t, exec (.ldFVx x) s = .next t ∧ t.i.toNat = 5 * (s.reg x).toNat ∧ OnlyIndex s t)

/-- R163: the hundreds, tens and ones digits of `V[X]` at I, I+1, I+2 and no other byte written; with I + 2 out of
bounds OutOfBounds(MEM_DATA) and no byte written; `I` and the registers unchanged either way. -/
def Obligations.DecimalDigitsAreStored : Prop :=
  ∀ (x : Reg) (s : State),
    (s.i.toNat + 2 < 4096 → ∃ t, exec (.ldBVx x) s = .next t ∧
      (s.MemWf →
        (t.byte s.i.toNat).toNat = (s.reg x).toNat / 100 ∧
        (t.byte (s.i.toNat + 1)).toNat = (s.reg x).toNat / 10 % 10 ∧
        (t.byte (s.i.toNat + 2)).toNat = (s.reg x).toNat % 10) ∧
      SameBytesOutside s.i.toNat 3 s t ∧ OnlyMem s t) ∧
    (4096 ≤ s.i.toNat + 2 → ∃ t, exec (.ldBVx x) s = .next t ∧ OutOfBounds .memData t ∧ t.i = s.i ∧ t.v = s.v ∧
      SameBytes s t)

/-- The register dump with the inclusive bound, the default (decision D5, log entry 2): `V[0]` to `V[X]` at I up to
I + X, `I` (decision D6) and every other byte unchanged; with I + X out of bounds OutOfBounds(MEM_DATA) and no byte
written (R164). -/
def Obligations.RegisterDump : Prop :=
  ∀ (x : Reg) (s : State), s.params.dumpLoadInclusive = true →
    (s.i.toNat + x.val < 4096 → ∃ t, exec (.ldMemVx x) s = .next t ∧
      (s.MemWf → ∀ r : Reg, r ≤ x → t.byte (s.i.toNat + r.val) = s.reg r) ∧
      SameBytesOutside s.i.toNat (x.val + 1) s t ∧ OnlyMem s t) ∧
    (4096 ≤ s.i.toNat + x.val → ∃ t, exec (.ldMemVx x) s = .next t ∧ OutOfBounds .memData t ∧ OnlyFault s t)

/-- The register load with the inclusive bound, the default (decision D5, log entry 2): `V[0]` to `V[X]` from I up to
I + X, the registers above, `I` (decision D6) and everything else unchanged; with I + X out of bounds
OutOfBounds(MEM_DATA) and no register written (R165). -/
def Obligations.RegisterLoad : Prop :=
  ∀ (x : Reg) (s : State), s.params.dumpLoadInclusive = true →
    (s.i.toNat + x.val < 4096 → ∃ t, exec (.ldVxMem x) s = .next t ∧
      (∀ r : Reg, r ≤ x → t.reg r = s.byte (s.i.toNat + r.val)) ∧
      (∀ r : Reg, x < r → t.reg r = s.reg r) ∧ OnlyRegs s t) ∧
    (4096 ≤ s.i.toNat + x.val → ∃ t, exec (.ldVxMem x) s = .next t ∧ OutOfBounds .memData t ∧ OnlyFault s t)

/-- The two instructions in a CORE whose parameter DUMP_LOAD_INCLUSIVE is false: X registers, and with X = 0 nothing
moves and nothing faults (R7, R164, R165, decision D5; `I` unchanged is D6). -/
def Obligations.BlockMovesUnderTheExclusiveBound : Prop :=
  ∀ (x : Reg) (s : State), s.params.dumpLoadInclusive = false →
    (exec (.ldMemVx 0) s = .next s ∧ exec (.ldVxMem 0) s = .next s) ∧
    (s.i.toNat + x.val ≤ 4096 → ∃ t, exec (.ldMemVx x) s = .next t ∧
      (s.MemWf → ∀ r : Reg, r < x → t.byte (s.i.toNat + r.val) = s.reg r) ∧
      SameBytesOutside s.i.toNat x.val s t ∧ OnlyMem s t) ∧
    (s.i.toNat + x.val ≤ 4096 → ∃ t, exec (.ldVxMem x) s = .next t ∧
      (∀ r : Reg, r < x → t.reg r = s.byte (s.i.toNat + r.val)) ∧
      (∀ r : Reg, x ≤ r → t.reg r = s.reg r) ∧ OnlyRegs s t) ∧
    (x.val ≠ 0 → 4096 < s.i.toNat + x.val →
      (∃ t, exec (.ldMemVx x) s = .next t ∧ OutOfBounds .memData t ∧ OnlyFault s t) ∧
      (∃ t, exec (.ldVxMem x) s = .next t ∧ OutOfBounds .memData t ∧ OnlyFault s t))

/-- Dumping registers and loading them into any other machine with the same memory contents, the same `I` and the same
bound convention gives back every register the dump stored (the source's round trip S9, which leaves the bound open).
Which registers those are is the parameter DUMP_LOAD_INCLUSIVE (decision D5): `V[X]` itself is one of them with the
default, true (log entry 2, PRESUMED), and is not with false. That the load finds them at the same `I` rests on decision
D6. -/
def Obligations.DumpThenLoadRestoresRegisters : Prop :=
  ∀ (x : Reg) (s s' t : State), s.MemWf → s.blockCount x = 0 ∨ s.i.toNat + (s.blockCount x - 1) < 4096 →
    exec (.ldMemVx x) s = .next t → (∀ a, s'.byte a = t.byte a) → s'.i = t.i →
    s'.params.dumpLoadInclusive = t.params.dumpLoadInclusive →
    ∃ u, exec (.ldVxMem x) s' = .next u ∧ ∀ r : Reg, r.val < s.blockCount x → u.reg r = s.reg r

/-- Where a register dump at `PC` stores at least two bytes, they are what the very next fetch reads: `V[0]` is the high
byte and `V[1]` the low byte of the word (20_memory.md on byte order and fetch coherence). How many bytes it stores is the
parameter DUMP_LOAD_INCLUSIVE (decision D5), so it holds for both its values. -/
def Obligations.DumpedWordIsFetchedNext : Prop :=
  ∀ (x : Reg) (s t : State), s.MemWf → 2 ≤ s.blockCount x → s.i = s.pc →
    s.i.toNat + (s.blockCount x - 1) < 4096 →
    exec (.ldMemVx x) s = .next t → t.fetchWord = wordOfBytes (s.reg 0) (s.reg 1) ∧ t.pc = s.pc

/-! ## Display -/

/-- R171: CLS turns every cell off and changes nothing else, `VF` included. -/
def Obligations.ClearScreen : Prop :=
  ∀ s : State, ∃ t, exec .cls s = .next t ∧ (∀ c : Fin 2048, Display.flat t.disp c = false) ∧
    t = { s with disp := t.disp } ∧ SameBytes s t

/-- R172: DRW inverts exactly the cells a set bit of the sprite falls on, with wrap-around and no clipping; `VF` is 1
exactly when one of them was on; `I`, the other registers and memory are unchanged; with the last row out of bounds it
raises OutOfBounds(MEM_DATA), changes no cell and does not write `VF`. N = 0 draws nothing, gives `VF` = 0 and cannot
fault. Drawing the same sprite at the same place twice (neither coordinate in `VF`, which the first draw writes)
restores the display. -/
def Obligations.DrawXorsTheSprite : Prop :=
  ∀ (x y : Reg) (n : BitVec 4) (s : State),
    let covers := SpriteCovers s.spriteRow (s.reg x).toNat (s.reg y).toNat n.toNat
    (n = 0 ∨ s.i.toNat + (n.toNat - 1) < 4096 → ∃ t, exec (.drw x y n) s = .next t ∧
      (∀ cx cy, covers cx cy → Display.cell t.disp cx cy = !Display.cell s.disp cx cy) ∧
      (∀ cx cy, ¬ covers cx cy → Display.cell t.disp cx cy = Display.cell s.disp cx cy) ∧
      ((∃ cx cy, covers cx cy ∧ Display.cell s.disp cx cy = true) → t.reg 15 = 1) ∧
      ((¬ ∃ cx cy, covers cx cy ∧ Display.cell s.disp cx cy = true) → t.reg 15 = 0) ∧
      RegsBut 15 s t ∧ t = { s with v := t.v, disp := t.disp } ∧ SameBytes s t ∧
      (x ≠ 15 → y ≠ 15 → ∃ u, exec (.drw x y n) t = .next u ∧ u.disp = s.disp)) ∧
    (n ≠ 0 → 4096 ≤ s.i.toNat + (n.toNat - 1) → ∃ t, exec (.drw x y n) s = .next t ∧ OutOfBounds .memData t ∧
      t.disp = s.disp ∧ t.v = s.v ∧ t.i = s.i ∧ SameBytes s t)

/-- The flag of the second of two identical draws: 1 exactly when a set bit of the sprite falls on a cell that was off
before the first draw (S6 as corrected by conflict C2, which the spec derives from the algorithm). Neither coordinate
register is `VF`, which the first draw writes. -/
def Obligations.SecondDrawFlag : Prop :=
  ∀ (x y : Reg) (n : BitVec 4) (s t u : State), x ≠ 15 → y ≠ 15 → n = 0 ∨ s.i.toNat + (n.toNat - 1) < 4096 →
    exec (.drw x y n) s = .next t → exec (.drw x y n) t = .next u →
    (u.reg 15 = 1 ↔ ∃ cx cy, SpriteCovers s.spriteRow (s.reg x).toNat (s.reg y).toNat n.toNat cx cy ∧
      Display.cell s.disp cx cy = false)

/-! ## Keys and timers -/

/-- SKP and SKNP skip on the level of the key `V[X]` names; a value above 15 raises OutOfBounds(KEY_INDEX) with `PC`
unchanged (R181, R182; the fault is the spec's decision D12). -/
def Obligations.KeySkips : Prop :=
  ∀ (x : Reg) (s : State),
    (∀ k : Key, (s.reg x).toNat = k.val →
      (∃ t, exec (.skp x) s = .next t ∧ t.pc = (if s.keys[k] = true then s.pc + 2 else s.pc) ∧ OnlyPc s t) ∧
      (∃ t, exec (.sknp x) s = .next t ∧ t.pc = (if s.keys[k] = true then s.pc else s.pc + 2) ∧ OnlyPc s t)) ∧
    (15 < (s.reg x).toNat →
      (∃ t, exec (.skp x) s = .next t ∧ OutOfBounds .keyIndex t ∧ OnlyFault s t) ∧
      (∃ t, exec (.sknp x) s = .next t ∧ OutOfBounds .keyIndex t ∧ OnlyFault s t))

/-- R183: with no key down `PC` goes back by 2 and nothing else changes; otherwise the lowest-indexed key that is down
goes to `V[X]` and `PC` stays. -/
def Obligations.WaitForKey : Prop :=
  ∀ (x : Reg) (s : State),
    ((∀ k : Key, s.keys[k] = false) → ∃ t, exec (.ldVxK x) s = .next t ∧ t.pc = s.pc - 2 ∧ OnlyPc s t) ∧
    (∀ k : Key, s.keys[k] = true → (∀ j : Key, j < k → s.keys[j] = false) →
      ∃ t, exec (.ldVxK x) s = .next t ∧ (t.reg x).toNat = k.val ∧ RegsBut x s t ∧ OnlyRegs s t)

/-- A STEP at a wait-for-key instruction with no key down leaves the whole state as it was: no forward progress (the
source's property S7). -/
def Obligations.WaitStallsTheStep : Prop :=
  ∀ (x : Reg) (s : State), s.Good → s.pc.toNat + 1 < 4096 → decode s.fetchWord = some (.ldVxK x) →
    (∀ k : Key, s.keys[k] = false) → step s = .next s

/-- R184, R185 and R186: the direct copies between a register and the timers. -/
def Obligations.TimerCopies : Prop :=
  ∀ (x : Reg) (s : State),
    (∃ t, exec (.ldVxDt x) s = .next t ∧ t.reg x = s.dt ∧ RegsBut x s t ∧ OnlyRegs s t) ∧
    (∃ t, exec (.ldDtVx x) s = .next t ∧ t.dt = s.reg x ∧ t = { s with dt := t.dt } ∧ SameBytes s t) ∧
    (∃ t, exec (.ldStVx x) s = .next t ∧ t.st = s.reg x ∧ t = { s with st := t.st } ∧ SameBytes s t)

/-! ## Rules of the whole machine -/

/-- R23: exactly ADD, SUB, SHR, SUBN, SHL on registers and DRW define the flag, and each leaves `VF` 0 or 1 (DRW
unless it faults); no other instruction changes `VF` unless `VF` is its own destination, alone or in a block. -/
def Obligations.VfIsWrittenOnlyByItsDefiners : Prop :=
  ∀ (i : Instr) (s t : State), exec i s = .next t →
    match i with
    | .addVxVy _ _ | .subVxVy _ _ | .shrVx _ _ | .subnVxVy _ _ | .shlVx _ _ => t.reg 15 = 0 ∨ t.reg 15 = 1
    | .drw _ _ _ => t.reg 15 = 0 ∨ t.reg 15 = 1 ∨ (t.fault.kind = .outOfBounds ∧ t.reg 15 = s.reg 15)
    | .ldVxNn x _ | .addVxNn x _ | .ldVxVy x _ | .orVxVy x _ | .andVxVy x _ | .xorVxVy x _ | .rndVxNn x _
    | .ldVxDt x | .ldVxK x | .ldVxMem x => x ≠ 15 → t.reg 15 = s.reg 15
    | _ => t.reg 15 = s.reg 15

/-- R26: how each instruction leaves `PC`, for a STEP at a = `PC`: a + 2 or, for a skip that is taken, a + 4; the
target for JP and CALL; NNN + `V[0]`; the popped entry; a itself for a wait with no key down; a for a fault in the
fetch, a + 2 for a fault in decode or execute. -/
def Obligations.PcAfterEachInstruction : Prop :=
  ∀ s t : State, s.Good → step s = .next t →
    (4096 ≤ s.pc.toNat + 1 → t.pc = s.pc) ∧
    (s.pc.toNat + 1 < 4096 → ¬ t.Good → t.pc.toNat = s.pc.toNat + 2) ∧
    (∀ i, s.pc.toNat + 1 < 4096 → decode s.fetchWord = some i → t.Good →
      match i with
      | .seVxNn x nn => t.pc.toNat = s.pc.toNat + (if s.reg x = nn then 4 else 2)
      | .sneVxNn x nn => t.pc.toNat = s.pc.toNat + (if s.reg x = nn then 2 else 4)
      | .seVxVy x y => t.pc.toNat = s.pc.toNat + (if s.reg x = s.reg y then 4 else 2)
      | .sneVxVy x y => t.pc.toNat = s.pc.toNat + (if s.reg x = s.reg y then 2 else 4)
      | .skp x => ∀ k : Key, (s.reg x).toNat = k.val → t.pc.toNat = s.pc.toNat + (if s.keys[k] = true then 4 else 2)
      | .sknp x => ∀ k : Key, (s.reg x).toNat = k.val → t.pc.toNat = s.pc.toNat + (if s.keys[k] = true then 2 else 4)
      | .jp nnn | .call nnn => t.pc.toNat = nnn.toNat
      | .jpV0 nnn => t.pc.toNat = nnn.toNat + (s.reg 0).toNat
      | .ret => ∃ j : Fin 16, j.val + 1 = s.sp.val ∧ t.pc = s.stack[j]
      | .ldVxK _ => t.pc.toNat = s.pc.toNat + (if ∀ k : Key, s.keys[k] = false then 0 else 2)
      | _ => t.pc.toNat = s.pc.toNat + 2)

/-- Which piece of state each instruction can change in its execute phase (the summary table of 10_state.md, whose STEP
writes `PC` in the advance as well): `KEYS`, `TONE_CUE` and the parameters none; `V` only the instructions with a
register destination or a flag; `PC` only control flow and the key wait; `FAULT` only the instructions that can fault;
`DT`, `ST` and `I` only the instructions that name them; `STACK` only CALL, `SP` only CALL and RET; `DISP` only CLS and
DRW; `MEM` only LD B and the dump; the model's draw counter only RND (log entry 3). -/
def Obligations.InstructionsWriteOnlyTheirState : Prop :=
  ∀ (i : Instr) (s t : State), exec i s = .next t →
    t.params = s.params ∧ t.keys = s.keys ∧ t.toneCue = s.toneCue ∧ t.randIn = s.randIn ∧
    (t.v ≠ s.v → match i with
      | .ldVxNn _ _ | .addVxNn _ _ | .ldVxVy _ _ | .orVxVy _ _ | .andVxVy _ _ | .xorVxVy _ _ | .addVxVy _ _
      | .subVxVy _ _ | .shrVx _ _ | .subnVxVy _ _ | .shlVx _ _ | .rndVxNn _ _ | .ldVxMem _ | .drw _ _ _ | .ldVxK _
      | .ldVxDt _ => True
      | _ => False) ∧
    (t.pc ≠ s.pc → match i with
      | .ret | .jp _ | .call _ | .seVxNn _ _ | .sneVxNn _ _ | .seVxVy _ _ | .sneVxVy _ _ | .jpV0 _ | .skp _ | .sknp _
      | .ldVxK _ => True
      | _ => False) ∧
    (t.fault ≠ s.fault → match i with
      | .ret | .call _ | .ldBVx _ | .ldMemVx _ | .ldVxMem _ | .drw _ _ _ | .skp _ | .sknp _ => True
      | _ => False) ∧
    (t.dt ≠ s.dt → ∃ x, i = .ldDtVx x) ∧ (t.st ≠ s.st → ∃ x, i = .ldStVx x) ∧
    (t.i ≠ s.i → (∃ nnn, i = .ldINnn nnn) ∨ (∃ x, i = .addIVx x) ∨ (∃ x, i = .ldFVx x)) ∧
    (t.stack ≠ s.stack → ∃ nnn, i = .call nnn) ∧ (t.sp ≠ s.sp → i = .ret ∨ ∃ nnn, i = .call nnn) ∧
    (t.disp ≠ s.disp → i = .cls ∨ ∃ x y n, i = .drw x y n) ∧
    (t.mem ≠ s.mem → (∃ x, i = .ldBVx x) ∨ (∃ x, i = .ldMemVx x)) ∧
    (t.draws ≠ s.draws → ∃ x nn, i = .rndVxNn x nn)

/-- Every byte an instruction changes is one of the three digits of LD B at I or one of the bytes of a dump at I, one for
each register it stores (how many those are is the parameter DUMP_LOAD_INCLUSIVE, decision D5). -/
def Obligations.StoresStayInTheirWindow : Prop :=
  ∀ (i : Instr) (s t : State) (a : Nat), exec i s = .next t → t.byte a ≠ s.byte a →
    a < 4096 ∧ s.i.toNat ≤ a ∧ ((∃ x, i = .ldBVx x ∧ a < s.i.toNat + 3) ∨
      (∃ x : Reg, i = .ldMemVx x ∧ a < s.i.toNat + s.blockCount x))

/-- No instruction reads `ST`, `TONE_CUE` or `FAULT` in its execute phase: with any other values there it does exactly
the same to everything else; `ST` ends as it was or as LD ST wrote it, the latch as it was or as a fault wrote it. -/
def Obligations.SoundTimerAndOutputsAreNeverRead : Prop :=
  ∀ (i : Instr) (s t : State) (st : Byte) (cue : Bool) (f : FaultLatch), exec i s = .next t →
    ∃ u, exec i { s with st := st, toneCue := cue, fault := f } = .next u ∧
      u = { t with st := u.st, toneCue := cue, fault := u.fault } ∧
      ((∀ x, i ≠ .ldStVx x) → u.st = st) ∧ (∀ x, i = .ldStVx x → u.st = t.st) ∧
      (u.fault = f ∨ u.fault = t.fault)

/-- Only RND looks at the random input: every other instruction does the same whatever byte the STEP carries (R198,
decision D16; `randIn` is the model's own field, log entry 3). -/
def Obligations.OnlyRandomReadsTheRandomInput : Prop :=
  ∀ (i : Instr) (s t : State) (rand : Option Byte), (∀ x nn, i ≠ .rndVxNn x nn) → exec i s = .next t →
    exec i (s.present rand) = .next (t.present rand)

/-- STEP(rand) at a CXNN word gives `V[X]` = rand & NN, for every value of rand (R152, R191 and R198, decision D16). -/
def Obligations.StepWithRandomByte : Prop :=
  ∀ (x : Reg) (nn rand : Byte) (s : State), s.Good → s.pc.toNat + 1 < 4096 →
    decode s.fetchWord = some (.rndVxNn x nn) →
    ∃ t, perform (.step rand) s = .next t ∧ t.reg x = rand &&& nn ∧ RegsBut x s t ∧ t.pc = s.pc + 2 ∧ t.Good ∧
      SameBytes s t

/-! ## Faults -/

/-- Which instruction can raise what in its execute phase and exactly when, completely (the table of 60_exceptions.md,
R213, an inference the spec marks as its own): the fault is OutOfBounds with the one cause of its instruction, without it
the latch is as it was, and every other instruction leaves the latch alone. How many registers a dump or load moves is
the parameter DUMP_LOAD_INCLUSIVE (decision D5; its default, X + 1, is log entry 2, PRESUMED), so it is `blockCount` here
and holds for both values; that a key index above 15 faults is decision D12. -/
def Obligations.OnlyListedInstructionsFault : Prop :=
  ∀ (i : Instr) (s t : State), exec i s = .next t →
    match i with
    | .ret => FaultsExactlyWhen (s.sp.val = 0) .stackUnderflow s t
    | .call _ => FaultsExactlyWhen (s.sp.val = 16) .stackOverflow s t
    | .ldBVx _ => FaultsExactlyWhen (4096 ≤ s.i.toNat + 2) .memData s t
    | .ldMemVx x | .ldVxMem x =>
      FaultsExactlyWhen (s.blockCount x ≠ 0 ∧ 4096 ≤ s.i.toNat + (s.blockCount x - 1)) .memData s t
    | .drw _ _ n => FaultsExactlyWhen (n ≠ 0 ∧ 4096 ≤ s.i.toNat + (n.toNat - 1)) .memData s t
    | .skp x | .sknp x => FaultsExactlyWhen (15 < (s.reg x).toNat) .keyIndex s t
    | _ => t.fault = s.fault

/-- Fault entry: a STEP that faults changes nothing but the latch and `PC`. A fetch fault leaves `PC` at a; an unknown
word and a fault of the execute phase leave a + 2. `FAULT.info` is the word for UnknownOpcode and the instruction's
address a for OutOfBounds (R212, R214, R215: the spec's decisions D9 and D10). -/
def Obligations.FaultEntryWritesOnlyTheLatch : Prop :=
  ∀ s t : State, s.Good → step s = .next t → ¬ t.Good →
    t = { s with pc := t.pc, fault := t.fault } ∧ SameBytes s t ∧
    ((4096 ≤ s.pc.toNat + 1 ∧ t.pc = s.pc ∧ t.fault = ⟨.outOfBounds, .memFetch, s.pc⟩) ∨
     (s.pc.toNat + 1 < 4096 ∧ t.pc.toNat = s.pc.toNat + 2 ∧
       ((decode s.fetchWord = none ∧ t.fault = ⟨.unknownOpcode, .none, s.fetchWord⟩) ∨
        ((∃ i, decode s.fetchWord = some i) ∧ t.fault.kind = .outOfBounds ∧ t.fault.cause ≠ .none ∧
          t.fault.cause ≠ .memFetch ∧ t.fault.info = s.pc))))

/-! ## Reset, the host's commands and the end of a run -/

/-- R22: after reset, whatever the parameters, and after the RESET command from any state, every register holds 0. -/
def Obligations.ResetRegistersAreZero : Prop :=
  (∀ (p : Parameters) (r : Reg), (State.resetWith p).reg r = 0) ∧
    ∀ s t : State, perform .reset s = .next t → ∀ r : Reg, t.reg r = 0

/-- RESET from any state: everything at its reset value, no fault, the program cleared, the bytes of the parameter FONT
restored, the parameters kept (R7): the state of 10_state.md after reset; power-on and the latch are decisions D22 and D9. -/
def Obligations.ResetCommandRestoresEverything : Prop :=
  ∀ s : State, ∃ t, perform .reset s = .next t ∧ t.params = s.params ∧ (∀ r : Reg, t.reg r = 0) ∧ t.i = 0 ∧ t.pc = 0x200 ∧ t.sp = 0 ∧
    (∀ j : Fin 16, t.stack[j] = 0) ∧ t.dt = 0 ∧ t.st = 0 ∧ (∀ k : Key, t.keys[k] = false) ∧
    (∀ c : Fin 2048, Display.flat t.disp c = false) ∧
    (∀ (a : Nat) (h : a < 80), t.byte a = s.params.font[a]) ∧ (∀ a, 80 ≤ a → a < 4096 → t.byte a = 0) ∧
    t.faultOutput = (0, 0, 0) ∧ t.toneCue = false

/-- LOAD puts byte j at 0x200 + j and changes nothing else; bytes that do not fit raise LoadOverflow, write no byte and
overwrite the latch, also when a fault is already there (R192; decisions D18 and D19). -/
def Obligations.LoadCopiesTheProgram : Prop :=
  ∀ (bytes : List Byte) (s : State),
    (0x200 + bytes.length ≤ 4096 → ∃ t, perform (.load bytes) s = .next t ∧
      (s.MemWf → ∀ j b, bytes[j]? = some b → t.byte (0x200 + j) = b) ∧
      SameBytesOutside 0x200 bytes.length s t ∧ OnlyMem s t) ∧
    (4096 < 0x200 + bytes.length → ∃ t, perform (.load bytes) s = .next t ∧ t.faultOutput = (3, 0, 0) ∧ OnlyFault s t)

/-- R194: TIMER_TICK lowers each timer by one, floored at 0, and sets the tone cue exactly when `ST` goes from 1 to 0;
nothing else changes, also while a fault is latched. After n ticks a timer is lowered by n, so one loaded with v reaches
0 after exactly v ticks and stays there. -/
def Obligations.TimerTickCountsDown : Prop :=
  (∀ s : State, ∃ t, perform .timerTick s = .next t ∧ t.dt.toNat = s.dt.toNat - 1 ∧ t.st.toNat = s.st.toNat - 1 ∧
    (t.toneCue = true ↔ s.st.toNat = 1) ∧ t = { s with dt := t.dt, st := t.st, toneCue := t.toneCue } ∧
    SameBytes s t) ∧
  (∀ (n : Nat) (s : State),
    ((timerTickCommand^[n]) s).dt.toNat = s.dt.toNat - n ∧ ((timerTickCommand^[n]) s).st.toNat = s.st.toNat - n)

/-- KEY sets the level of one key and changes nothing else (R195; that the index is a 4-bit port is the spec's
decision D1). -/
def Obligations.KeyCommandSetsOneLevel : Prop :=
  ∀ (k : Key) (pressed : Bool) (s : State), ∃ t, perform (.key k pressed) s = .next t ∧
    (∀ j : Key, t.keys[j] = if j = k then pressed else s.keys[j]) ∧ t = { s with keys := t.keys } ∧ SameBytes s t

/-- The reset state meets the invariant, whatever the parameters. -/
def Obligations.ResetMeetsTheInvariant : Prop := ∀ p : Parameters, (State.resetWith p).Inv

/-- The invariant every STEP keeps, from every state that has it: memory in canonical form, `PC` at most 0x10FE, every
stack entry at most 4096, and a latch the fault tables allow. -/
def Obligations.StepKeepsTheInvariant : Prop :=
  ∀ s t : State, s.Inv → step s = .next t → t.Inv

/-- Every state the host can bring a CORE, with any parameters, to by any sequence of commands meets the invariant. -/
def Obligations.ReachableStatesMeetTheInvariant : Prop :=
  ∀ s : State, Reachable s → s.Inv

/-- Only RESET clears the latch: no other command takes a faulted CORE to a good state, and under it a STEP, a
TIMER_TICK and a KEY leave the latch exactly as it is (decision D19). -/
def Obligations.OnlyResetClearsTheLatch : Prop :=
  ∀ (c : Command) (s t : State), ¬ s.Good → perform c s = .next t →
    (c ≠ .reset → ¬ t.Good) ∧ ((∀ bytes, c ≠ .load bytes) → c ≠ .reset → t.fault = s.fault)

/-- At the end of a run every further STEP leaves the whole state as it is (the end-of-run convention, decision D25). -/
def Obligations.EndOfRunIsAFixedPoint : Prop :=
  ∀ (e : BitVec 12) (s : State), s.AtEnd e → step s = .next s

/-! ## The commands and the parameters -/

/-- The invariant every command of the host keeps, from every state that has it: RESET, LOAD of any bytes, STEP with any
random byte, TIMER_TICK and KEY. -/
def Obligations.CommandsKeepTheInvariant : Prop :=
  ∀ (c : Command) (s t : State), s.Inv → perform c s = .next t → t.Inv

/-- The parameters FONT and DUMP_LOAD_INCLUSIVE are fixed for the machine: no STEP and no command, RESET included,
changes them (R7; that they are carried in the state is the model's choice, log entry 14). -/
def Obligations.ParametersAreFixed : Prop :=
  (∀ s t : State, step s = .next t → t.params = s.params) ∧
  (∀ (c : Command) (s t : State), perform c s = .next t → t.params = s.params)
end

