-- ==== Sys2Proof/Laws/Decode.lean ====
section
/-! SUPPORT. The small lemmas of the decoder and the encoder: register fields, the fields of an encoded word, bytes and
words, and what a legal word is. -/

namespace Sys2Proof

/-- A register number is what its 4-bit field selects. -/
@[simp] theorem reg_ofBits_toBits (r : Reg) : Reg.ofBits r.toBits = r := by
  revert r; decide

@[simp] theorem reg_toBits_ofBits (b : BitVec 4) : (Reg.ofBits b).toBits = b := by
  revert b; decide

/-! The bits of an encoded word, one lemma per format (R81), then its fields. -/

theorem bit_encodeNNN (o : BitVec 4) (nnn : BitVec 12) (k : Nat) :
    (encodeNNN o nnn).getLsbD k = if k < 12 then nnn.getLsbD k else o.getLsbD (k - 12) := by
  have := BitVec.getLsbD_append (x := o) (y := nnn) (i := k)
  exact this

theorem bit_lowByte (x : Reg) (nn : Byte) (k : Nat) :
    (x.toBits ++ nn : BitVec 12).getLsbD k = if k < 8 then nn.getLsbD k else x.toBits.getLsbD (k - 8) := by
  have := BitVec.getLsbD_append (x := x.toBits) (y := nn) (i := k)
  exact this

theorem bit_lowNibble (y : Reg) (n : BitVec 4) (k : Nat) :
    (y.toBits ++ n : BitVec 8).getLsbD k = if k < 4 then n.getLsbD k else y.toBits.getLsbD (k - 4) := by
  have := BitVec.getLsbD_append (x := y.toBits) (y := n) (i := k)
  exact this

@[simp] theorem highNibble_encodeNNN (o : BitVec 4) (nnn : BitVec 12) : highNibble (encodeNNN o nnn) = o := by
  apply BitVec.eq_of_getLsbD_eq
  intro k hk
  simp [highNibble, bit_encodeNNN, hk]

@[simp] theorem fieldNNN_encodeNNN (o : BitVec 4) (nnn : BitVec 12) : fieldNNN (encodeNNN o nnn) = nnn := by
  apply BitVec.eq_of_getLsbD_eq
  intro k hk
  simp [fieldNNN, bit_encodeNNN, hk]

/-- Format XNN is format NNN with the 12 bits made of a register and a byte. -/
theorem encodeXNN_eq (o : BitVec 4) (x : Reg) (nn : Byte) : encodeXNN o x nn = encodeNNN o (x.toBits ++ nn) := rfl

/-- Formats XYF and XYN are format XNN with the low byte made of a register and a nibble. -/
theorem encodeXYN_eq (o : BitVec 4) (x y : Reg) (n : BitVec 4) : encodeXYN o x y n = encodeXNN o x (y.toBits ++ n) :=
  rfl

@[simp] theorem highNibble_encodeXNN (o : BitVec 4) (x : Reg) (nn : Byte) : highNibble (encodeXNN o x nn) = o :=
  highNibble_encodeNNN o (x.toBits ++ nn)

@[simp] theorem fieldX_encodeXNN (o : BitVec 4) (x : Reg) (nn : Byte) : fieldX (encodeXNN o x nn) = x := by
  have : (encodeXNN o x nn).extractLsb' 8 4 = x.toBits := by
    apply BitVec.eq_of_getLsbD_eq
    intro k hk
    have h : 8 + k < 12 := by omega
    simp only [BitVec.getLsbD_extractLsb', encodeXNN_eq, bit_encodeNNN, bit_lowByte, hk, h, decide_true, Bool.true_and,
      if_true, Nat.not_lt.2 (Nat.le_add_right 8 k), if_false, Nat.add_sub_cancel_left]
  rw [fieldX, this, reg_ofBits_toBits]

@[simp] theorem fieldNN_encodeXNN (o : BitVec 4) (x : Reg) (nn : Byte) : fieldNN (encodeXNN o x nn) = nn := by
  apply BitVec.eq_of_getLsbD_eq
  intro k hk
  have h : k < 12 := by omega
  simp only [fieldNN, BitVec.getLsbD_extractLsb', encodeXNN_eq, bit_encodeNNN, bit_lowByte, hk, h, decide_true,
    Bool.true_and, if_true, Nat.zero_add]

@[simp] theorem highNibble_encodeXYN (o : BitVec 4) (x y : Reg) (n : BitVec 4) :
    highNibble (encodeXYN o x y n) = o := highNibble_encodeXNN o x _

@[simp] theorem fieldX_encodeXYN (o : BitVec 4) (x y : Reg) (n : BitVec 4) : fieldX (encodeXYN o x y n) = x :=
  fieldX_encodeXNN o x _

@[simp] theorem fieldY_encodeXYN (o : BitVec 4) (x y : Reg) (n : BitVec 4) : fieldY (encodeXYN o x y n) = y := by
  have : (encodeXYN o x y n).extractLsb' 4 4 = y.toBits := by
    apply BitVec.eq_of_getLsbD_eq
    intro k hk
    have h : 4 + k < 12 := by omega
    have h1 : 4 + k < 8 := by omega
    simp only [BitVec.getLsbD_extractLsb', encodeXYN_eq, encodeXNN_eq, bit_encodeNNN, bit_lowByte, bit_lowNibble, hk, h,
      h1, decide_true, Bool.true_and, if_true, Nat.not_lt.2 (Nat.le_add_right 4 k), if_false, Nat.add_sub_cancel_left]
  rw [fieldY, this, reg_ofBits_toBits]

@[simp] theorem fieldN_encodeXYN (o : BitVec 4) (x y : Reg) (n : BitVec 4) : fieldN (encodeXYN o x y n) = n := by
  apply BitVec.eq_of_getLsbD_eq
  intro k hk
  have h : k < 12 := by omega
  have h1 : k < 8 := by omega
  simp only [fieldN, BitVec.getLsbD_extractLsb', encodeXYN_eq, encodeXNN_eq, bit_encodeNNN, bit_lowByte, bit_lowNibble,
    hk, h, h1, decide_true, Bool.true_and, if_true, Nat.zero_add]

theorem bit_wordOfBytes (high low : Byte) (k : Nat) :
    (wordOfBytes high low).getLsbD k = if k < 8 then low.getLsbD k else high.getLsbD (k - 8) := by
  have := BitVec.getLsbD_append (x := high) (y := low) (i := k)
  exact this

/-- A word is its high byte, then its low byte (R52). -/
@[simp] theorem wordOfBytes_wordHigh_wordLow (op : Word) : wordOfBytes (wordHigh op) (wordLow op) = op := by
  apply BitVec.eq_of_getLsbD_eq
  intro k hk
  by_cases h : k < 8
  · simp [bit_wordOfBytes, wordLow, h]
  · have h' : k - 8 < 8 := by omega
    have h'' : 8 + (k - 8) = k := by omega
    simp [bit_wordOfBytes, wordHigh, h, h', h'']

/-- The value of a word of two bytes (R52). -/
theorem toNat_wordOfBytes (high low : Byte) : (wordOfBytes high low).toNat = 256 * high.toNat + low.toNat := by
  have := low.isLt
  rw [show (wordOfBytes high low).toNat = (high ++ low).toNat from rfl, BitVec.toNat_append, Nat.shiftLeft_eq,
    Nat.mul_comm, ← Nat.two_pow_add_eq_or_of_lt this]

/-- Every instruction term is well formed: the types of its operands bound them (R82). -/
theorem instr_wellFormed (i : Instr) : i.wellFormed = true := by
  cases i <;> (simp only [Instr.wellFormed, Instr.row]; decide)

/-- The patterns of the opcode map are pairwise disjoint: no word matches two rows (R83). -/
theorem opcodeMap_disjoint :
    opcodeMap.Pairwise fun r q => r.pattern &&& q.mask ≠ q.pattern &&& r.mask := by decide

end Sys2Proof
end

