-- ==== Sys2Proof/Laws/Display.lean ====
section
/-! SUPPORT. What DRW's pixel loop comes to: a cell is inverted exactly when a set bit of the sprite falls on it, and
the collision flag is the OR over those cells (R172). -/

namespace Sys2Proof.Machine

theorem cell_flip (d : Display) (x x' : Fin 64) (y y' : Fin 32) :
    Display.cell (Display.flip d x y) x' y' =
      if x' = x ∧ y' = y then !Display.cell d x' y' else Display.cell d x' y' := by
  rcases eq_or_ne y' y with rfl | hy
  · rcases eq_or_ne x' x with rfl | hx
    · simp [Display.cell, Display.flip]
    · have : x.val ≠ x'.val := fun e => hx (Fin.ext e.symm)
      simp [Display.cell, Display.flip, hx, this]
  · have : y.val ≠ y'.val := fun e => hy (Fin.ext e.symm)
    simp [Display.cell, Display.flip, hy, this]

/-- Two displays with the same cells are the same. -/
theorem display_ext {d e : Display} (h : ∀ x y, Display.cell d x y = Display.cell e x y) : d = e := by
  apply Vector.ext
  intro y hy
  apply Vector.ext
  intro x hx
  exact h ⟨x, hx⟩ ⟨y, hy⟩

/-- A set bit of columns 0 to k-1 of a sprite row falls on the cell (x, y). -/
def RowCovers (b : Byte) (x0 py k : Nat) (x : Fin 64) (y : Fin 32) : Prop :=
  ∃ col < k, b.getLsbD (7 - col) = true ∧ x.val = (x0 + col) % 64 ∧ y.val = py % 32

/-- A canvas `d` is the canvas `c` with exactly the cells of `p` inverted and their collisions accumulated. -/
structure Inverts (p : Fin 64 → Fin 32 → Prop) (c d : Canvas) : Prop where
  on : ∀ x y, p x y → Display.cell d.disp x y = !Display.cell c.disp x y
  off : ∀ x y, ¬ p x y → Display.cell d.disp x y = Display.cell c.disp x y
  hit : d.hit = true ↔ c.hit = true ∨ ∃ x y, p x y ∧ Display.cell c.disp x y = true

theorem Inverts.of_iff {p q : Fin 64 → Fin 32 → Prop} {c d : Canvas} (h : Inverts p c d) (hpq : ∀ x y, p x y ↔ q x y) :
    Inverts q c d := by
  obtain rfl : p = q := funext fun x => funext fun y => propext (hpq x y)
  exact h

theorem Inverts.none (c : Canvas) : Inverts (fun _ _ => False) c c :=
  ⟨fun _ _ h => h.elim, fun _ _ _ => rfl, by simp⟩

/-- Inverting disjoint sets of cells one after the other inverts their union. -/
theorem Inverts.trans {p q : Fin 64 → Fin 32 → Prop} {c d e : Canvas} (h1 : Inverts p c d) (h2 : Inverts q d e)
    (hd : ∀ x y, p x y → ¬ q x y) : Inverts (fun x y => p x y ∨ q x y) c e where
  on x y h := by
    rcases h with h | h
    · rw [h2.off x y (hd x y h), h1.on x y h]
    · rw [h2.on x y h, h1.off x y fun hp => hd x y hp h]
  off x y h := by rw [h2.off x y fun hq => h (.inr hq), h1.off x y fun hp => h (.inl hp)]
  hit := by
    rw [h2.hit, h1.hit, or_assoc]
    refine or_congr_right ?_
    constructor
    · rintro (⟨x, y, hp, hc⟩ | ⟨x, y, hq, hc⟩)
      · exact ⟨x, y, .inl hp, hc⟩
      · exact ⟨x, y, .inr hq, by rwa [h1.off x y fun hp => hd x y hp hq] at hc⟩
    · rintro ⟨x, y, hp | hq, hc⟩
      · exact .inl ⟨x, y, hp, hc⟩
      · exact .inr ⟨x, y, hq, by rwa [h1.off x y fun hp => hd x y hp hq]⟩

theorem pixel_inverts (c : Canvas) (px py : Nat) :
    Inverts (fun x y => x.val = px % 64 ∧ y.val = py % 32) c (c.pixel px py) := by
  have hx (x : Fin 64) : x.val = px % 64 ↔ x = Fin.ofNat 64 px := by simp [Fin.ext_iff]
  have hy (y : Fin 32) : y.val = py % 32 ↔ y = Fin.ofNat 32 py := by simp [Fin.ext_iff]
  refine ⟨fun x y h => ?_, fun x y h => ?_, ?_⟩
  · rw [hx, hy] at h
    simp [Canvas.pixel, cell_flip, h]
  · rw [hx, hy] at h
    simp only [Canvas.pixel, cell_flip, h, if_false]
  · simp [Canvas.pixel, hx, hy]

/-- A row of the sprite up to column k, for k up to 8: eight columns never fall on the same cell. -/
theorem row_inverts_upTo (c : Canvas) (b : Byte) (x0 py k : Nat) (hk : k ≤ 8) :
    Inverts (RowCovers b x0 py k) c
      ((List.range k).foldl (fun c col => if spriteBit b col then c.pixel (x0 + col) py else c) c) := by
  induction k with
  | zero => exact (Inverts.none c).of_iff fun x y => by simp [RowCovers]
  | succ k ih =>
    rw [List.range_succ, List.foldl_append, List.foldl_cons, List.foldl_nil]
    have ih := ih (by omega)
    by_cases hb : spriteBit b k = true
    · rw [if_pos hb]
      refine (ih.trans (pixel_inverts _ (x0 + k) py) ?_).of_iff fun x y => ?_
      · rintro x y ⟨col, hcol, -, hx, -⟩ ⟨hx', -⟩
        omega
      · constructor
        · rintro (⟨col, hcol, h⟩ | ⟨h1, h2⟩)
          · exact ⟨col, by omega, h⟩
          · exact ⟨k, by omega, hb, h1, h2⟩
        · rintro ⟨col, hcol, hs, h1, h2⟩
          rcases Nat.lt_succ_iff_lt_or_eq.1 hcol with h | rfl
          · exact .inl ⟨col, h, hs, h1, h2⟩
          · exact .inr ⟨h1, h2⟩
    · rw [if_neg hb]
      refine ih.of_iff fun x y => ?_
      constructor
      · rintro ⟨col, hcol, h⟩
        exact ⟨col, by omega, h⟩
      · rintro ⟨col, hcol, hs, h⟩
        rcases Nat.lt_succ_iff_lt_or_eq.1 hcol with h' | rfl
        · exact ⟨col, h', hs, h⟩
        · exact absurd hs hb

theorem row_inverts (c : Canvas) (b : Byte) (x0 py : Nat) : Inverts (RowCovers b x0 py 8) c (c.row b x0 py) :=
  row_inverts_upTo c b x0 py 8 le_rfl

/-- The sprite of n rows, for n up to 32: its rows never fall on the same row of the display. -/
theorem sprite_inverts (c : Canvas) (rows : Nat → Byte) (x0 y0 n : Nat) (hn : n ≤ 32) :
    Inverts (SpriteCovers rows x0 y0 n) c (c.sprite rows x0 y0 n) := by
  unfold Canvas.sprite
  induction n with
  | zero => exact (Inverts.none c).of_iff fun x y => by simp [SpriteCovers]
  | succ n ih =>
    rw [List.range_succ, List.foldl_append, List.foldl_cons, List.foldl_nil]
    refine ((ih (by omega)).trans (row_inverts _ _ x0 (y0 + n)) ?_).of_iff fun x y => ?_
    · rintro x y ⟨r, hr, _, _, _, _, hy⟩ ⟨_, _, _, _, hy'⟩
      omega
    · constructor
      · rintro (⟨r, hr, h⟩ | ⟨col, hc, hs, hx, hy⟩)
        · exact ⟨r, by omega, h⟩
        · exact ⟨n, by omega, col, hc, hs, hx, hy⟩
      · rintro ⟨r, hr, col, hc, hs, hx, hy⟩
        rcases Nat.lt_succ_iff_lt_or_eq.1 hr with h | rfl
        · exact .inl ⟨r, h, col, hc, hs, hx, hy⟩
        · exact .inr ⟨col, hc, hs, hx, hy⟩

/-- What DRW draws: exactly the cells its sprite covers are inverted, and a hit is a covered cell that was on (R172). -/
theorem canvasOf_inverts (s : State) (x y : Reg) (n : BitVec 4) :
    Inverts (SpriteCovers s.spriteRow (s.reg x).toNat (s.reg y).toNat n.toNat) ⟨s.disp, false⟩ (s.canvasOf x y n) :=
  sprite_inverts _ _ _ _ _ (by have := n.isLt; omega)

/-- Every cell of the blank display is off. -/
@[simp] theorem cell_blank (x : Fin 64) (y : Fin 32) : Display.cell Display.blank x y = false := by
  simp [Display.cell, Display.blank]

end Sys2Proof.Machine
end

