-- ==== Sys2Proof/Laws/Memory.lean ====
section
/-! SUPPORT. Memory: what a read gives after writes, and that every operation keeps the canonical form. -/

namespace Sys2Proof.Machine

/-- A write leaves every other address as it was. -/
theorem read_write_of_ne (f : Font) (m : Memory) {a c : Nat} (b : Byte) (h : c ≠ a) :
    Memory.read f (Memory.write f m a b) c = Memory.read f m c := by
  induction m with
  | nil => simp only [Memory.write]; split <;> simp [Memory.read, h.symm]
  | cons e m ih =>
    obtain ⟨p, d⟩ := e
    simp only [Memory.write]
    split
    · simp [Memory.read, ih]
    · split
      · subst_vars
        split <;> simp [Memory.read, h.symm]
      · split <;> simp [Memory.read, h.symm]

/-- An address below every listed one reads as its reset contents. -/
theorem read_of_wfFrom {f : Font} {m : Memory} {lo a : Nat} (h : Memory.wfFrom f lo m = true) (ha : a < lo) :
    Memory.read f m a = Memory.unlisted f a := by
  induction m generalizing lo with
  | nil => rfl
  | cons e m ih =>
    obtain ⟨p, d⟩ := e
    simp only [Memory.wfFrom, Bool.and_eq_true, decide_eq_true_eq] at h
    simp only [Memory.read]
    rw [if_neg (by omega)]
    exact ih h.2 (by omega)

/-- A read after a write to the same address gives the byte written. -/
theorem read_write_self_from {f : Font} {m : Memory} {lo : Nat} (h : Memory.wfFrom f lo m = true) (a : Nat) (b : Byte) :
    Memory.read f (Memory.write f m a b) a = b := by
  induction m generalizing lo with
  | nil => simp only [Memory.write]; split <;> simp_all [Memory.read]
  | cons e m ih =>
    obtain ⟨p, d⟩ := e
    simp only [Memory.wfFrom, Bool.and_eq_true, decide_eq_true_eq] at h
    simp only [Memory.write]
    split
    · rename_i hp
      simp [Memory.read, hp.ne, ih h.2]
    · split
      · subst_vars
        split
        · subst_vars
          exact read_of_wfFrom h.2 (Nat.lt_succ_self _)
        · simp [Memory.read]
      · split
        · subst_vars
          rw [Memory.read, if_neg (by omega)]
          exact read_of_wfFrom h.2 (by omega)
        · simp [Memory.read]

theorem read_write_self {f : Font} {m : Memory} (h : Memory.wf f m = true) (a : Nat) (b : Byte) :
    Memory.read f (Memory.write f m a b) a = b := read_write_self_from h a b

theorem wfFrom_mono {f : Font} {m : Memory} {lo lo' : Nat} (h : Memory.wfFrom f lo m = true) (hlo : lo' ≤ lo) :
    Memory.wfFrom f lo' m = true := by
  cases m with
  | nil => rfl
  | cons e m =>
    obtain ⟨p, d⟩ := e
    simp only [Memory.wfFrom, Bool.and_eq_true, decide_eq_true_eq] at h ⊢
    exact ⟨⟨⟨by omega, h.1.1.2⟩, h.1.2⟩, h.2⟩

theorem wfFrom_write {f : Font} {m : Memory} {lo a : Nat} (h : Memory.wfFrom f lo m = true) (hlo : lo ≤ a)
    (ha : a < Config.memSize) (b : Byte) : Memory.wfFrom f lo (Memory.write f m a b) = true := by
  induction m generalizing lo with
  | nil => simp only [Memory.write]; split <;> simp_all [Memory.wfFrom]
  | cons e m ih =>
    obtain ⟨p, d⟩ := e
    have h0 := h
    simp only [Memory.wfFrom, Bool.and_eq_true, decide_eq_true_eq] at h
    simp only [Memory.write]
    split
    · simp only [Memory.wfFrom, Bool.and_eq_true, decide_eq_true_eq]
      exact ⟨h.1, ih h.2 (by omega)⟩
    · split
      · subst_vars
        split
        · exact wfFrom_mono h.2 (by omega)
        · simp_all [Memory.wfFrom]
      · split
        · exact h0
        · simp only [Memory.wfFrom, Bool.and_eq_true, decide_eq_true_eq]
          exact ⟨⟨⟨hlo, ha⟩, ‹_›⟩, ⟨⟨by omega, h.1.1.2⟩, h.1.2⟩, h.2⟩

/-- A write below 4096 keeps the canonical form. -/
theorem wf_write {f : Font} {m : Memory} (h : Memory.wf f m = true) {a : Nat} (ha : a < Config.memSize) (b : Byte) :
    Memory.wf f (Memory.write f m a b) = true := wfFrom_write h (Nat.zero_le _) ha b

/-- Consecutive writes leave every address outside their window as it was. -/
theorem read_writeBytes_outside (f : Font) (m : Memory) (base : Nat) (bs : List Byte) {a : Nat}
    (h : a < base ∨ base + bs.length ≤ a) : Memory.read f (Memory.writeBytes f m base bs) a = Memory.read f m a := by
  induction bs generalizing m base with
  | nil => rfl
  | cons b bs ih =>
    simp only [List.length_cons] at h
    rw [Memory.writeBytes, ih _ _ (by omega), read_write_of_ne _ _ _ (by omega)]

/-- Consecutive writes that end below 4097, or no write at all, keep the canonical form. -/
theorem wf_writeBytes {f : Font} {m : Memory} (h : Memory.wf f m = true) (base : Nat) (bs : List Byte)
    (hb : bs.length = 0 ∨ base + bs.length ≤ Config.memSize) :
    Memory.wf f (Memory.writeBytes f m base bs) = true := by
  induction bs generalizing m base with
  | nil => exact h
  | cons b bs ih =>
    simp only [List.length_cons] at hb
    exact ih (wf_write h (by omega) b) _ (.inr (by omega))

/-- Byte j of consecutive writes reads back at the base plus j. -/
theorem read_writeBytes {f : Font} {m : Memory} (h : Memory.wf f m = true) (base : Nat) (bs : List Byte)
    (hb : base + bs.length ≤ Config.memSize) {j : Nat} {b : Byte} (hj : bs[j]? = some b) :
    Memory.read f (Memory.writeBytes f m base bs) (base + j) = b := by
  induction bs generalizing m base j with
  | nil => simp at hj
  | cons c bs ih =>
    simp only [List.length_cons] at hb
    rw [Memory.writeBytes]
    cases j with
    | zero =>
      obtain rfl : c = b := by simpa using hj
      rw [read_writeBytes_outside _ _ _ _ (by omega), Nat.add_zero, read_write_self h]
    | succ j =>
      rw [show base + (j + 1) = base + 1 + j by omega]
      exact ih (wf_write h (by omega) c) _ (by omega) (by simpa using hj)

/-- Above the font an unlisted address reads 0 (R35). -/
theorem unlisted_of_le (f : Font) {a : Nat} (h : Config.fontBytes ≤ a) : Memory.unlisted f a = 0 := by
  have h' : 80 ≤ a := h
  simp [Memory.unlisted, Vector.getElem?_eq_none h']

/-- Below it an unlisted address reads the font's byte (R31, R35). -/
theorem unlisted_of_lt (f : Font) {a : Nat} (h : a < 80) : Memory.unlisted f a = f[a] := by
  simp [Memory.unlisted, h]

/-! ## The same of a CORE -/

/-- Memory is untouched by an operation that keeps it and the parameters. -/
theorem byte_congr {s t : State} (hm : t.mem = s.mem) (hp : t.params = s.params) (a : Nat) : t.byte a = s.byte a := by
  rw [State.byte, State.byte, hm, hp]

/-- Stored bytes leave every address outside their window as it was. -/
theorem byte_storeBytes_outside (s : State) (base : Nat) (bs : List Byte) {a : Nat}
    (h : a < base ∨ base + bs.length ≤ a) : (s.storeBytes base bs).byte a = s.byte a :=
  read_writeBytes_outside _ _ _ _ h

/-- Byte j of stored bytes reads back at the base plus j. -/
theorem byte_storeBytes {s : State} (h : Memory.wf s.params.font s.mem = true) (base : Nat) (bs : List Byte)
    (hb : base + bs.length ≤ Config.memSize) {j : Nat} {b : Byte} (hj : bs[j]? = some b) :
    (s.storeBytes base bs).byte (base + j) = b := read_writeBytes h base bs hb hj

/-- Stored bytes keep the canonical form. -/
theorem wf_storeBytes {s : State} (h : Memory.wf s.params.font s.mem = true) (base : Nat) (bs : List Byte)
    (hb : bs.length = 0 ∨ base + bs.length ≤ Config.memSize) :
    Memory.wf (s.storeBytes base bs).params.font (s.storeBytes base bs).mem = true := wf_writeBytes h base bs hb

/-- A stored instruction word keeps the canonical form. -/
theorem wf_storeWord {s : State} (h : Memory.wf s.params.font s.mem = true) (a : Nat) (op : Word)
    (ha : a + 2 ≤ Config.memSize) :
    Memory.wf (s.storeWord a op).params.font (s.storeWord a op).mem = true := wf_storeBytes h a _ (.inr ha)

/-- Reset memory lists nothing and is canonical, whatever the parameters. -/
theorem wf_resetWith (p : Parameters) :
    Memory.wf (State.resetWith p).params.font (State.resetWith p).mem = true := rfl

end Sys2Proof.Machine
end

