-- ==== Sys2Proof/Laws/State.lean ====
section
/-! SUPPORT. One lemma per field of `State` and update of it, so that no later proof unfolds a record update. -/

namespace Sys2Proof.Machine.State

variable (s : State)

/-! ## `setReg` -/

@[simp] theorem setReg_v (r : Reg) (b : Byte) : (s.setReg r b).v = s.v.set r b := rfl
@[simp] theorem setReg_i (r : Reg) (b : Byte) : (s.setReg r b).i = s.i := rfl
@[simp] theorem setReg_params (r : Reg) (b : Byte) : (s.setReg r b).params = s.params := rfl
@[simp] theorem setReg_pc (r : Reg) (b : Byte) : (s.setReg r b).pc = s.pc := rfl
@[simp] theorem setReg_sp (r : Reg) (b : Byte) : (s.setReg r b).sp = s.sp := rfl
@[simp] theorem setReg_stack (r : Reg) (b : Byte) : (s.setReg r b).stack = s.stack := rfl
@[simp] theorem setReg_dt (r : Reg) (b : Byte) : (s.setReg r b).dt = s.dt := rfl
@[simp] theorem setReg_st (r : Reg) (b : Byte) : (s.setReg r b).st = s.st := rfl
@[simp] theorem setReg_keys (r : Reg) (b : Byte) : (s.setReg r b).keys = s.keys := rfl
@[simp] theorem setReg_disp (r : Reg) (b : Byte) : (s.setReg r b).disp = s.disp := rfl
@[simp] theorem setReg_mem (r : Reg) (b : Byte) : (s.setReg r b).mem = s.mem := rfl
@[simp] theorem setReg_fault (r : Reg) (b : Byte) : (s.setReg r b).fault = s.fault := rfl
@[simp] theorem setReg_toneCue (r : Reg) (b : Byte) : (s.setReg r b).toneCue = s.toneCue := rfl
@[simp] theorem setReg_draws (r : Reg) (b : Byte) : (s.setReg r b).draws = s.draws := rfl
@[simp] theorem setReg_randIn (r : Reg) (b : Byte) : (s.setReg r b).randIn = s.randIn := rfl
@[simp] theorem setReg_byte (r : Reg) (b : Byte) (a : Nat) : (s.setReg r b).byte a = s.byte a := rfl

/-! ## `setFlag` -/

@[simp] theorem setFlag_v (f : Bool) : (s.setFlag f).v = s.v.set Reg.flag (flagByte f) := rfl
@[simp] theorem setFlag_i (f : Bool) : (s.setFlag f).i = s.i := rfl
@[simp] theorem setFlag_params (f : Bool) : (s.setFlag f).params = s.params := rfl
@[simp] theorem setFlag_pc (f : Bool) : (s.setFlag f).pc = s.pc := rfl
@[simp] theorem setFlag_sp (f : Bool) : (s.setFlag f).sp = s.sp := rfl
@[simp] theorem setFlag_stack (f : Bool) : (s.setFlag f).stack = s.stack := rfl
@[simp] theorem setFlag_dt (f : Bool) : (s.setFlag f).dt = s.dt := rfl
@[simp] theorem setFlag_st (f : Bool) : (s.setFlag f).st = s.st := rfl
@[simp] theorem setFlag_keys (f : Bool) : (s.setFlag f).keys = s.keys := rfl
@[simp] theorem setFlag_disp (f : Bool) : (s.setFlag f).disp = s.disp := rfl
@[simp] theorem setFlag_mem (f : Bool) : (s.setFlag f).mem = s.mem := rfl
@[simp] theorem setFlag_fault (f : Bool) : (s.setFlag f).fault = s.fault := rfl
@[simp] theorem setFlag_toneCue (f : Bool) : (s.setFlag f).toneCue = s.toneCue := rfl
@[simp] theorem setFlag_draws (f : Bool) : (s.setFlag f).draws = s.draws := rfl
@[simp] theorem setFlag_randIn (f : Bool) : (s.setFlag f).randIn = s.randIn := rfl
@[simp] theorem setFlag_byte (f : Bool) (a : Nat) : (s.setFlag f).byte a = s.byte a := rfl

/-! ## `setResultAndFlag` -/

@[simp] theorem setResultAndFlag_v (r : Reg) (b : Byte) (f : Bool) : (s.setResultAndFlag r b f).v = (s.v.set r b).set Reg.flag (flagByte f) := rfl
@[simp] theorem setResultAndFlag_i (r : Reg) (b : Byte) (f : Bool) : (s.setResultAndFlag r b f).i = s.i := rfl
@[simp] theorem setResultAndFlag_params (r : Reg) (b : Byte) (f : Bool) : (s.setResultAndFlag r b f).params = s.params := rfl
@[simp] theorem setResultAndFlag_pc (r : Reg) (b : Byte) (f : Bool) : (s.setResultAndFlag r b f).pc = s.pc := rfl
@[simp] theorem setResultAndFlag_sp (r : Reg) (b : Byte) (f : Bool) : (s.setResultAndFlag r b f).sp = s.sp := rfl
@[simp] theorem setResultAndFlag_stack (r : Reg) (b : Byte) (f : Bool) : (s.setResultAndFlag r b f).stack = s.stack := rfl
@[simp] theorem setResultAndFlag_dt (r : Reg) (b : Byte) (f : Bool) : (s.setResultAndFlag r b f).dt = s.dt := rfl
@[simp] theorem setResultAndFlag_st (r : Reg) (b : Byte) (f : Bool) : (s.setResultAndFlag r b f).st = s.st := rfl
@[simp] theorem setResultAndFlag_keys (r : Reg) (b : Byte) (f : Bool) : (s.setResultAndFlag r b f).keys = s.keys := rfl
@[simp] theorem setResultAndFlag_disp (r : Reg) (b : Byte) (f : Bool) : (s.setResultAndFlag r b f).disp = s.disp := rfl
@[simp] theorem setResultAndFlag_mem (r : Reg) (b : Byte) (f : Bool) : (s.setResultAndFlag r b f).mem = s.mem := rfl
@[simp] theorem setResultAndFlag_fault (r : Reg) (b : Byte) (f : Bool) : (s.setResultAndFlag r b f).fault = s.fault := rfl
@[simp] theorem setResultAndFlag_toneCue (r : Reg) (b : Byte) (f : Bool) : (s.setResultAndFlag r b f).toneCue = s.toneCue := rfl
@[simp] theorem setResultAndFlag_draws (r : Reg) (b : Byte) (f : Bool) : (s.setResultAndFlag r b f).draws = s.draws := rfl
@[simp] theorem setResultAndFlag_randIn (r : Reg) (b : Byte) (f : Bool) : (s.setResultAndFlag r b f).randIn = s.randIn := rfl
@[simp] theorem setResultAndFlag_byte (r : Reg) (b : Byte) (f : Bool) (a : Nat) : (s.setResultAndFlag r b f).byte a = s.byte a := rfl

/-! ## `latch` -/

@[simp] theorem latch_v (k : FaultKind) (c : FaultCause) (w : Word) : (s.latch k c w).v = s.v := rfl
@[simp] theorem latch_i (k : FaultKind) (c : FaultCause) (w : Word) : (s.latch k c w).i = s.i := rfl
@[simp] theorem latch_params (k : FaultKind) (c : FaultCause) (w : Word) : (s.latch k c w).params = s.params := rfl
@[simp] theorem latch_pc (k : FaultKind) (c : FaultCause) (w : Word) : (s.latch k c w).pc = s.pc := rfl
@[simp] theorem latch_sp (k : FaultKind) (c : FaultCause) (w : Word) : (s.latch k c w).sp = s.sp := rfl
@[simp] theorem latch_stack (k : FaultKind) (c : FaultCause) (w : Word) : (s.latch k c w).stack = s.stack := rfl
@[simp] theorem latch_dt (k : FaultKind) (c : FaultCause) (w : Word) : (s.latch k c w).dt = s.dt := rfl
@[simp] theorem latch_st (k : FaultKind) (c : FaultCause) (w : Word) : (s.latch k c w).st = s.st := rfl
@[simp] theorem latch_keys (k : FaultKind) (c : FaultCause) (w : Word) : (s.latch k c w).keys = s.keys := rfl
@[simp] theorem latch_disp (k : FaultKind) (c : FaultCause) (w : Word) : (s.latch k c w).disp = s.disp := rfl
@[simp] theorem latch_mem (k : FaultKind) (c : FaultCause) (w : Word) : (s.latch k c w).mem = s.mem := rfl
@[simp] theorem latch_fault (k : FaultKind) (c : FaultCause) (w : Word) : (s.latch k c w).fault = ⟨k, c, w⟩ := rfl
@[simp] theorem latch_toneCue (k : FaultKind) (c : FaultCause) (w : Word) : (s.latch k c w).toneCue = s.toneCue := rfl
@[simp] theorem latch_draws (k : FaultKind) (c : FaultCause) (w : Word) : (s.latch k c w).draws = s.draws := rfl
@[simp] theorem latch_randIn (k : FaultKind) (c : FaultCause) (w : Word) : (s.latch k c w).randIn = s.randIn := rfl
@[simp] theorem latch_byte (k : FaultKind) (c : FaultCause) (w : Word) (a : Nat) : (s.latch k c w).byte a = s.byte a := rfl

/-! ## `storeBytes` -/

@[simp] theorem storeBytes_params (a : Nat) (bs : List Byte) : (s.storeBytes a bs).params = s.params := rfl
@[simp] theorem storeBytes_mem (a : Nat) (bs : List Byte) :
    (s.storeBytes a bs).mem = Memory.writeBytes s.params.font s.mem a bs := rfl
@[simp] theorem storeBytes_v (a : Nat) (bs : List Byte) : (s.storeBytes a bs).v = s.v := rfl
@[simp] theorem storeBytes_i (a : Nat) (bs : List Byte) : (s.storeBytes a bs).i = s.i := rfl
@[simp] theorem storeBytes_pc (a : Nat) (bs : List Byte) : (s.storeBytes a bs).pc = s.pc := rfl
@[simp] theorem storeBytes_sp (a : Nat) (bs : List Byte) : (s.storeBytes a bs).sp = s.sp := rfl
@[simp] theorem storeBytes_stack (a : Nat) (bs : List Byte) : (s.storeBytes a bs).stack = s.stack := rfl
@[simp] theorem storeBytes_dt (a : Nat) (bs : List Byte) : (s.storeBytes a bs).dt = s.dt := rfl
@[simp] theorem storeBytes_st (a : Nat) (bs : List Byte) : (s.storeBytes a bs).st = s.st := rfl
@[simp] theorem storeBytes_keys (a : Nat) (bs : List Byte) : (s.storeBytes a bs).keys = s.keys := rfl
@[simp] theorem storeBytes_disp (a : Nat) (bs : List Byte) : (s.storeBytes a bs).disp = s.disp := rfl
@[simp] theorem storeBytes_fault (a : Nat) (bs : List Byte) : (s.storeBytes a bs).fault = s.fault := rfl
@[simp] theorem storeBytes_toneCue (a : Nat) (bs : List Byte) : (s.storeBytes a bs).toneCue = s.toneCue := rfl
@[simp] theorem storeBytes_draws (a : Nat) (bs : List Byte) : (s.storeBytes a bs).draws = s.draws := rfl
@[simp] theorem storeBytes_randIn (a : Nat) (bs : List Byte) : (s.storeBytes a bs).randIn = s.randIn := rfl

/-! ## `loadBlock` -/

@[simp] theorem loadBlock_i (n : Nat) : (s.loadBlock n).i = s.i := by simp only [State.loadBlock]
@[simp] theorem loadBlock_params (n : Nat) : (s.loadBlock n).params = s.params := by simp only [State.loadBlock]
@[simp] theorem loadBlock_pc (n : Nat) : (s.loadBlock n).pc = s.pc := by simp only [State.loadBlock]
@[simp] theorem loadBlock_sp (n : Nat) : (s.loadBlock n).sp = s.sp := by simp only [State.loadBlock]
@[simp] theorem loadBlock_stack (n : Nat) : (s.loadBlock n).stack = s.stack := by simp only [State.loadBlock]
@[simp] theorem loadBlock_dt (n : Nat) : (s.loadBlock n).dt = s.dt := by simp only [State.loadBlock]
@[simp] theorem loadBlock_st (n : Nat) : (s.loadBlock n).st = s.st := by simp only [State.loadBlock]
@[simp] theorem loadBlock_keys (n : Nat) : (s.loadBlock n).keys = s.keys := by simp only [State.loadBlock]
@[simp] theorem loadBlock_disp (n : Nat) : (s.loadBlock n).disp = s.disp := by simp only [State.loadBlock]
@[simp] theorem loadBlock_mem (n : Nat) : (s.loadBlock n).mem = s.mem := by simp only [State.loadBlock]
@[simp] theorem loadBlock_fault (n : Nat) : (s.loadBlock n).fault = s.fault := by simp only [State.loadBlock]
@[simp] theorem loadBlock_toneCue (n : Nat) : (s.loadBlock n).toneCue = s.toneCue := by simp only [State.loadBlock]
@[simp] theorem loadBlock_draws (n : Nat) : (s.loadBlock n).draws = s.draws := by simp only [State.loadBlock]
@[simp] theorem loadBlock_randIn (n : Nat) : (s.loadBlock n).randIn = s.randIn := by simp only [State.loadBlock]
@[simp] theorem loadBlock_byte (n : Nat) (a : Nat) : (s.loadBlock n).byte a = s.byte a := by simp only [State.loadBlock, State.byte]

/-! ## `drawn` -/

@[simp] theorem drawn_v : (s.drawn).v = s.v := rfl
@[simp] theorem drawn_i : (s.drawn).i = s.i := rfl
@[simp] theorem drawn_params : (s.drawn).params = s.params := rfl
@[simp] theorem drawn_pc : (s.drawn).pc = s.pc := rfl
@[simp] theorem drawn_sp : (s.drawn).sp = s.sp := rfl
@[simp] theorem drawn_stack : (s.drawn).stack = s.stack := rfl
@[simp] theorem drawn_dt : (s.drawn).dt = s.dt := rfl
@[simp] theorem drawn_st : (s.drawn).st = s.st := rfl
@[simp] theorem drawn_keys : (s.drawn).keys = s.keys := rfl
@[simp] theorem drawn_disp : (s.drawn).disp = s.disp := rfl
@[simp] theorem drawn_mem : (s.drawn).mem = s.mem := rfl
@[simp] theorem drawn_fault : (s.drawn).fault = s.fault := rfl
@[simp] theorem drawn_toneCue : (s.drawn).toneCue = s.toneCue := rfl
@[simp] theorem drawn_draws : (s.drawn).draws = s.draws + 1 := rfl
@[simp] theorem drawn_randIn : (s.drawn).randIn = s.randIn := rfl
@[simp] theorem drawn_byte (a : Nat) : (s.drawn).byte a = s.byte a := rfl

/-! ## `advance` -/

@[simp] theorem advance_v : (s.advance).v = s.v := rfl
@[simp] theorem advance_i : (s.advance).i = s.i := rfl
@[simp] theorem advance_params : (s.advance).params = s.params := rfl
@[simp] theorem advance_pc : (s.advance).pc = s.pc + 2 := rfl
@[simp] theorem advance_sp : (s.advance).sp = s.sp := rfl
@[simp] theorem advance_stack : (s.advance).stack = s.stack := rfl
@[simp] theorem advance_dt : (s.advance).dt = s.dt := rfl
@[simp] theorem advance_st : (s.advance).st = s.st := rfl
@[simp] theorem advance_keys : (s.advance).keys = s.keys := rfl
@[simp] theorem advance_disp : (s.advance).disp = s.disp := rfl
@[simp] theorem advance_mem : (s.advance).mem = s.mem := rfl
@[simp] theorem advance_fault : (s.advance).fault = s.fault := rfl
@[simp] theorem advance_toneCue : (s.advance).toneCue = s.toneCue := rfl
@[simp] theorem advance_draws : (s.advance).draws = s.draws := rfl
@[simp] theorem advance_randIn : (s.advance).randIn = s.randIn := rfl
@[simp] theorem advance_byte (a : Nat) : (s.advance).byte a = s.byte a := rfl

/-! ## `present` -/

@[simp] theorem present_v (o : Option Byte) : (s.present o).v = s.v := rfl
@[simp] theorem present_i (o : Option Byte) : (s.present o).i = s.i := rfl
@[simp] theorem present_params (o : Option Byte) : (s.present o).params = s.params := rfl
@[simp] theorem present_pc (o : Option Byte) : (s.present o).pc = s.pc := rfl
@[simp] theorem present_sp (o : Option Byte) : (s.present o).sp = s.sp := rfl
@[simp] theorem present_stack (o : Option Byte) : (s.present o).stack = s.stack := rfl
@[simp] theorem present_dt (o : Option Byte) : (s.present o).dt = s.dt := rfl
@[simp] theorem present_st (o : Option Byte) : (s.present o).st = s.st := rfl
@[simp] theorem present_keys (o : Option Byte) : (s.present o).keys = s.keys := rfl
@[simp] theorem present_disp (o : Option Byte) : (s.present o).disp = s.disp := rfl
@[simp] theorem present_mem (o : Option Byte) : (s.present o).mem = s.mem := rfl
@[simp] theorem present_fault (o : Option Byte) : (s.present o).fault = s.fault := rfl
@[simp] theorem present_toneCue (o : Option Byte) : (s.present o).toneCue = s.toneCue := rfl
@[simp] theorem present_draws (o : Option Byte) : (s.present o).draws = s.draws := rfl
@[simp] theorem present_randIn (o : Option Byte) : (s.present o).randIn = o := rfl
@[simp] theorem present_byte (o : Option Byte) (a : Nat) : (s.present o).byte a = s.byte a := rfl

/-! ## `skipIf` -/

@[simp] theorem skipIf_pc (c : Bool) : (s.skipIf c).pc = if c then s.pc + 2 else s.pc := by
  cases c <;> rfl
@[simp] theorem skipIf_v (c : Bool) : (s.skipIf c).v = s.v := by cases c <;> rfl
@[simp] theorem skipIf_i (c : Bool) : (s.skipIf c).i = s.i := by cases c <;> rfl
@[simp] theorem skipIf_params (c : Bool) : (s.skipIf c).params = s.params := by cases c <;> rfl
@[simp] theorem skipIf_sp (c : Bool) : (s.skipIf c).sp = s.sp := by cases c <;> rfl
@[simp] theorem skipIf_stack (c : Bool) : (s.skipIf c).stack = s.stack := by cases c <;> rfl
@[simp] theorem skipIf_dt (c : Bool) : (s.skipIf c).dt = s.dt := by cases c <;> rfl
@[simp] theorem skipIf_st (c : Bool) : (s.skipIf c).st = s.st := by cases c <;> rfl
@[simp] theorem skipIf_keys (c : Bool) : (s.skipIf c).keys = s.keys := by cases c <;> rfl
@[simp] theorem skipIf_disp (c : Bool) : (s.skipIf c).disp = s.disp := by cases c <;> rfl
@[simp] theorem skipIf_mem (c : Bool) : (s.skipIf c).mem = s.mem := by cases c <;> rfl
@[simp] theorem skipIf_fault (c : Bool) : (s.skipIf c).fault = s.fault := by cases c <;> rfl
@[simp] theorem skipIf_toneCue (c : Bool) : (s.skipIf c).toneCue = s.toneCue := by cases c <;> rfl
@[simp] theorem skipIf_draws (c : Bool) : (s.skipIf c).draws = s.draws := by cases c <;> rfl
@[simp] theorem skipIf_randIn (c : Bool) : (s.skipIf c).randIn = s.randIn := by cases c <;> rfl
@[simp] theorem skipIf_byte (c : Bool) (a : Nat) : (s.skipIf c).byte a = s.byte a := by cases c <;> rfl

end Sys2Proof.Machine.State
end

