-- ==== Sys2Proof/Laws/Registers.lean ====
section
/-! SUPPORT. What the operations over registers, blocks, keys and flags do, once each. -/

namespace Sys2Proof.Machine

open State

/-- A register read after a register write. -/
theorem reg_setReg (s : State) (r q : Reg) (b : Byte) : (s.setReg r b).reg q = if q = r then b else s.reg q := by
  rcases eq_or_ne q r with rfl | h
  · simp [State.reg, State.setReg]
  · have : r.val ≠ q.val := fun e => h (Fin.ext e.symm)
    simp [State.reg, State.setReg, h, this]

@[simp] theorem reg_setReg_self (s : State) (r : Reg) (b : Byte) : (s.setReg r b).reg r = b := by simp [reg_setReg]

theorem reg_setReg_of_ne (s : State) {r q : Reg} (b : Byte) (h : q ≠ r) : (s.setReg r b).reg q = s.reg q := by
  simp [reg_setReg, h]

/-- `VF` after its write. -/
@[simp] theorem reg_setFlag_flag (s : State) (f : Bool) : (s.setFlag f).reg 15 = flagByte f :=
  reg_setReg_self s Reg.flag _

theorem reg_setFlag_of_ne (s : State) {q : Reg} (f : Bool) (h : q ≠ 15) : (s.setFlag f).reg q = s.reg q :=
  reg_setReg_of_ne s _ h

/-- The flag is written last, so `VF` ends as the flag for every destination (R12). -/
@[simp] theorem reg_setResultAndFlag_flag (s : State) (r : Reg) (b : Byte) (f : Bool) :
    (s.setResultAndFlag r b f).reg 15 = flagByte f := reg_setFlag_flag _ _

theorem reg_setResultAndFlag_of_ne_flag (s : State) (r : Reg) (b : Byte) (f : Bool) {q : Reg} (h : q ≠ 15) :
    (s.setResultAndFlag r b f).reg q = if q = r then b else s.reg q := by
  rw [State.setResultAndFlag, reg_setFlag_of_ne _ _ h, reg_setReg]

/-- Registers are untouched by an operation that keeps `V`. -/
theorem reg_congr {s t : State} (h : t.v = s.v) (r : Reg) : t.reg r = s.reg r := by simp [State.reg, h]

theorem flagByte_eq_zero_or_one (f : Bool) : flagByte f = 0 ∨ flagByte f = 1 := by cases f <;> decide

/-- A register after a block load: from memory below the bound, as before from it on (R165). -/
theorem reg_loadBlock (s : State) (n : Nat) (r : Reg) :
    (s.loadBlock n).reg r = if r.val < n then s.byte (s.i.toNat + r.val) else s.reg r := by
  simp [State.reg, State.loadBlock]

/-- Byte j of a register block is `V[j]` (R164). -/
theorem block_getElem? (s : State) (n : Nat) (r : Reg) (h : r.val < n) : (s.block n)[r.val]? = some (s.reg r) := by
  simp [State.block, State.reg, h]

theorem block_length (s : State) (n : Nat) (h : n ≤ 16) : (s.block n).length = n := by
  simp [State.block, h]

theorem blockCount_le (s : State) (x : Reg) : s.blockCount x ≤ 16 := by
  have := x.isLt
  unfold State.blockCount
  split <;> omega

theorem blockCount_congr {s t : State} (h : t.params = s.params) (x : Reg) : t.blockCount x = s.blockCount x := by
  rw [State.blockCount, State.blockCount, h]

theorem blockCount_of_inclusive {s : State} (h : s.params.dumpLoadInclusive = true) (x : Reg) :
    s.blockCount x = x.val + 1 := by rw [State.blockCount, if_pos h]

theorem blockCount_of_exclusive {s : State} (h : s.params.dumpLoadInclusive = false) (x : Reg) :
    s.blockCount x = x.val := by simp [State.blockCount, h]

/-- A byte names a key exactly when it is that key's number (R181). -/
theorem keyOfByte_eq_some {b : Byte} {k : Key} : keyOfByte b = some k ↔ b.toNat = k.val := by
  unfold keyOfByte
  split
  · simp [Fin.ext_iff]
  · rename_i h
    have := k.isLt
    simp; omega

theorem keyOfByte_eq_none {b : Byte} : keyOfByte b = none ↔ 15 < b.toNat := by
  unfold keyOfByte
  split <;> simp <;> omega

/-- No lowest key exactly when none is down (R183). -/
theorem lowestKey_eq_none {s : State} : s.lowestKey = none ↔ ∀ k : Key, s.keys[k] = false := by
  simp [State.lowestKey, State.key]

/-- The lowest key is down, and no lower one is (R183). -/
theorem lowestKey_eq_some {s : State} {k : Key} :
    s.lowestKey = some k ↔ s.keys[k] = true ∧ ∀ j : Key, j < k → s.keys[j] = false := by
  constructor
  · intro h
    obtain ⟨hk, i, hi, he, hlt⟩ := List.find?_eq_some_iff_getElem.1 h
    simp only [List.getElem_finRange] at he
    refine ⟨by simpa [State.key] using hk, fun j hj => ?_⟩
    have hj' : j.val < i := by
      have : k.val = i := by rw [← he]; rfl
      have : j.val < k.val := hj
      omega
    simpa [State.key] using hlt j.val hj'
  · rintro ⟨hk, hlt⟩
    refine List.find?_eq_some_iff_getElem.2 ⟨by simpa [State.key] using hk, k.val, by simp, by simp, fun j hj => ?_⟩
    simpa [State.key] using hlt ⟨j, by have := k.isLt; omega⟩ hj

end Sys2Proof.Machine
end

