-- ==== Sys2Proof/Laws/Exec.lean ====
section
/-! SUPPORT. Inversion lemmas: what the shared operations and the step can answer, said once. -/

namespace Sys2Proof.Machine

/-- Fault entry of the execute phase always answers a next state (R214). -/
@[simp] theorem raiseOutOfBounds_eq (c : FaultCause) (s : State) :
    raiseOutOfBounds c s = .next (s.latch .outOfBounds c (s.pc - 2)) := rfl

theorem dataInBounds_iff (base count : Nat) :
    dataInBounds base count = true ↔ count = 0 ∨ base + (count - 1) < 4096 := by
  simp only [dataInBounds, Bool.or_eq_true, decide_eq_true_eq]
  rfl

/-- Accesses in bounds: the effect. -/
theorem withData_of_inBounds {n : Nat} {s : State} {f : State → State} (h : n = 0 ∨ s.i.toNat + (n - 1) < 4096) :
    withData n s f = .next (f s) := by rw [withData, if_pos ((dataInBounds_iff _ _).2 h)]

/-- Accesses out of bounds: the fault, and nothing else (R215). -/
theorem withData_of_outOfBounds {n : Nat} {s : State} {f : State → State} (h0 : n ≠ 0)
    (h : 4096 ≤ s.i.toNat + (n - 1)) : withData n s f = .next (s.latch .outOfBounds .memData (s.pc - 2)) := by
  rw [withData, if_neg (fun hb => by have := (dataInBounds_iff _ _).1 hb; omega)]
  rfl

/-- Everything an instruction with data accesses can do. -/
theorem withData_next {n : Nat} {s t : State} {f : State → State} (h : withData n s f = .next t) :
    ((n = 0 ∨ s.i.toNat + (n - 1) < 4096) ∧ t = f s) ∨
      (n ≠ 0 ∧ 4096 ≤ s.i.toNat + (n - 1) ∧ t = s.latch .outOfBounds .memData (s.pc - 2)) := by
  by_cases hb : n = 0 ∨ s.i.toNat + (n - 1) < 4096
  · rw [withData_of_inBounds hb] at h
    exact .inl ⟨hb, by cases h; rfl⟩
  · rw [withData_of_outOfBounds (by omega) (by omega)] at h
    exact .inr ⟨by omega, by omega, by cases h; rfl⟩

/-! The four instructions with data accesses, as instances of `withData` (R163, R164, R165, R172). -/

theorem exec_ldBVx (x : Reg) (s : State) :
    exec (.ldBVx x) s = withData 3 s fun s => s.storeBytes s.i.toNat (decimalDigits (s.reg x)) := rfl

theorem exec_ldMemVx (x : Reg) (s : State) :
    exec (.ldMemVx x) s =
      withData (s.blockCount x) s fun s => s.storeBytes s.i.toNat (s.block (s.blockCount x)) := rfl

theorem exec_ldVxMem (x : Reg) (s : State) :
    exec (.ldVxMem x) s = withData (s.blockCount x) s fun s => s.loadBlock (s.blockCount x) := rfl

theorem exec_drw (x y : Reg) (n : BitVec 4) (s : State) :
    exec (.drw x y n) s = withData n.toNat s fun s =>
      ({ s with disp := (s.canvasOf x y n).disp }).setFlag (s.canvasOf x y n).hit := rfl

/-- Everything a skip on a key can do. -/
theorem skipOnKey_next {x : Reg} {l : Bool} {s t : State} (h : skipOnKey x l s = .next t) :
    (∃ k : Key, (s.reg x).toNat = k.val ∧ t = s.skipIf (s.keys[k] == l)) ∨
      (15 < (s.reg x).toNat ∧ t = s.latch .outOfBounds .keyIndex (s.pc - 2)) := by
  unfold skipOnKey at h
  split at h
  · rename_i k hk
    exact .inl ⟨k, keyOfByte_eq_some.1 hk, by cases h; rfl⟩
  · rename_i hk
    exact .inr ⟨keyOfByte_eq_none.1 hk, by cases h; rfl⟩

theorem skipOnKey_of_key {x : Reg} {l : Bool} {s : State} {k : Key} (h : (s.reg x).toNat = k.val) :
    skipOnKey x l s = .next (s.skipIf (s.keys[k] == l)) := by rw [skipOnKey, keyOfByte_eq_some.2 h]; rfl

theorem skipOnKey_of_large {x : Reg} {l : Bool} {s : State} (h : 15 < (s.reg x).toNat) :
    skipOnKey x l s = .next (s.latch .outOfBounds .keyIndex (s.pc - 2)) := by
  rw [skipOnKey, keyOfByte_eq_none.2 h]; rfl

theorem execRet_of_pos {s : State} (h : 0 < s.sp.val) :
    execRet s = .next { s with sp := ⟨s.sp.val - 1, by omega⟩, pc := s.stack[s.sp.val - 1]'(by omega) } := by
  rw [execRet, dif_pos h]

theorem execRet_of_zero {s : State} (h : s.sp.val = 0) :
    execRet s = .next (s.latch .outOfBounds .stackUnderflow (s.pc - 2)) := by
  rw [execRet, dif_neg (by omega)]; rfl

theorem execCall_of_lt {nnn : BitVec 12} {s : State} (h : s.sp.val < 16) :
    execCall nnn s =
      .next { s with stack := s.stack.set s.sp.val s.pc, sp := ⟨s.sp.val + 1, by omega⟩, pc := wordOfNNN nnn } := by
  rw [execCall, dif_pos h]

theorem execCall_of_full {nnn : BitVec 12} {s : State} (h : s.sp.val = 16) :
    execCall nnn s = .next (s.latch .outOfBounds .stackOverflow (s.pc - 2)) := by
  rw [execCall, dif_neg (by omega)]; rfl

theorem execLdVxK_of_key {x : Reg} {s : State} {k : Key} (h : s.lowestKey = some k) :
    execLdVxK x s = .next (s.setReg x (BitVec.ofNat 8 k.val)) := by rw [execLdVxK, h]

theorem execLdVxK_of_none {x : Reg} {s : State} (h : ∀ k : Key, s.keys[k] = false) :
    execLdVxK x s = .next { s with pc := s.pc - 2 } := by rw [execLdVxK, lowestKey_eq_none.2 h]

/-- Everything RET can do. -/
theorem execRet_next {s t : State} (h : execRet s = .next t) :
    (∃ (j : Fin 16) (q : Fin 17), j.val + 1 = s.sp.val ∧ q.val = j.val ∧ t = { s with sp := q, pc := s.stack[j] }) ∨
      (s.sp.val = 0 ∧ t = s.latch .outOfBounds .stackUnderflow (s.pc - 2)) := by
  unfold execRet at h
  split at h
  · rename_i hs
    have := s.sp.isLt
    exact .inl ⟨⟨s.sp.val - 1, by omega⟩, ⟨s.sp.val - 1, by omega⟩, by simp; omega, rfl, by cases h; rfl⟩
  · exact .inr ⟨by omega, by cases h; rfl⟩

/-- Everything CALL can do. -/
theorem execCall_next {nnn : BitVec 12} {s t : State} (h : execCall nnn s = .next t) :
    (∃ (j : Fin 16) (q : Fin 17), j.val = s.sp.val ∧ q.val = s.sp.val + 1 ∧
        t = { s with stack := s.stack.set j s.pc, sp := q, pc := wordOfNNN nnn }) ∨
      (s.sp.val = 16 ∧ t = s.latch .outOfBounds .stackOverflow (s.pc - 2)) := by
  unfold execCall at h
  split at h
  · rename_i hs
    exact .inl ⟨⟨s.sp.val, hs⟩, ⟨s.sp.val + 1, by omega⟩, rfl, rfl, by cases h; rfl⟩
  · have := s.sp.isLt
    exact .inr ⟨by omega, by cases h; rfl⟩

/-- Everything LD Vx, K can do. -/
theorem execLdVxK_next {x : Reg} {s t : State} (h : execLdVxK x s = .next t) :
    (∃ k : Key, s.lowestKey = some k ∧ t = s.setReg x (BitVec.ofNat 8 k.val)) ∨
      ((∀ k : Key, s.keys[k] = false) ∧ t = { s with pc := s.pc - 2 }) := by
  unfold execLdVxK at h
  split at h
  · rename_i k hk
    exact .inl ⟨k, hk, by cases h; rfl⟩
  · rename_i hk
    exact .inr ⟨lowestKey_eq_none.1 hk, by cases h; rfl⟩

/-- Zero-extension keeps the value (R82). -/
@[simp] theorem toNat_wordOfNNN (nnn : BitVec 12) : (wordOfNNN nnn).toNat = nnn.toNat := by
  have := nnn.isLt
  simp only [wordOfNNN, BitVec.toNat_setWidth]
  omega

@[simp] theorem toNat_wordOfByte (b : Byte) : (wordOfByte b).toNat = b.toNat := by
  have := b.isLt
  simp only [wordOfByte, BitVec.toNat_setWidth]
  omega

/-- The target of JP V0, NNN: the exact sum, at most 0x10FE (R28, R129). -/
theorem toNat_jumpV0 (nnn : BitVec 12) (b : Byte) :
    (wordOfNNN nnn + wordOfByte b).toNat = nnn.toNat + b.toNat ∧ nnn.toNat + b.toNat ≤ 0x10FE := by
  have := nnn.isLt
  have := b.isLt
  rw [BitVec.toNat_add, toNat_wordOfNNN, toNat_wordOfByte]
  omega

/-- A halted CORE issues nothing. -/
theorem issue_of_halted {s : State} (h : s.fault.kind ≠ .none) : s.issue = .ended s := by
  simp [State.issue, State.halted, h]

theorem fetchable_iff (s : State) : s.fetchable = true ↔ s.pc.toNat + 1 < 4096 := by
  simp only [State.fetchable, decide_eq_true_eq]
  rfl

theorem issue_of_unfetchable {s : State} (h : s.fault.kind = .none) (hf : 4096 ≤ s.pc.toNat + 1) :
    s.issue = .ended (s.latch .outOfBounds .memFetch s.pc) := by
  have hf' : ¬ s.fetchable = true := by rw [fetchable_iff]; omega
  simp [State.issue, State.halted, h, hf']

theorem issue_of_decoded {s : State} {i : Instr} (h : s.fault.kind = .none) (hf : s.pc.toNat + 1 < 4096)
    (hd : decode s.fetchWord = some i) : s.issue = .run i s.advance := by
  simp [State.issue, State.halted, h, (fetchable_iff s).2 hf, hd]

theorem issue_of_unknown {s : State} (h : s.fault.kind = .none) (hf : s.pc.toNat + 1 < 4096)
    (hd : decode s.fetchWord = none) :
    s.issue = .ended (s.advance.latch .unknownOpcode .none s.fetchWord) := by
  simp [State.issue, State.halted, h, (fetchable_iff s).2 hf, hd]

/-- Everything a STEP can do (R115, R191): halted, a fetch fault, an unknown word, or the decoded instruction. -/
theorem step_cases (s : State) :
    (s.fault.kind ≠ .none ∧ step s = .next s) ∨
    (s.fault.kind = .none ∧ 4096 ≤ s.pc.toNat + 1 ∧ step s = .next (s.latch .outOfBounds .memFetch s.pc)) ∨
    (s.fault.kind = .none ∧ s.pc.toNat + 1 < 4096 ∧ decode s.fetchWord = none ∧
      step s = .next (s.advance.latch .unknownOpcode .none s.fetchWord)) ∨
    (s.fault.kind = .none ∧ s.pc.toNat + 1 < 4096 ∧ ∃ i, decode s.fetchWord = some i ∧
      step s = exec i s.advance) := by
  by_cases h : s.fault.kind = .none
  · by_cases hf : s.pc.toNat + 1 < 4096
    · cases hd : decode s.fetchWord with
      | none => exact .inr (.inr (.inl ⟨h, hf, rfl, by rw [step, issue_of_unknown h hf hd]⟩))
      | some i => exact .inr (.inr (.inr ⟨h, hf, i, rfl, by rw [step, issue_of_decoded h hf hd]⟩))
    · exact .inr (.inl ⟨h, by omega, by rw [step, issue_of_unfetchable h (by omega)]⟩)
  · exact .inl ⟨h, by rw [step, issue_of_halted h]⟩

/-- After the advance of a fetched instruction `PC` is a + 2, with no overflow (R111). -/
theorem toNat_pc_advance {s : State} (h : s.pc.toNat + 1 < 4096) : (s.pc + 2).toNat = s.pc.toNat + 2 := by
  rw [BitVec.toNat_add]
  simp
  omega

/-- The address a from `PC` = a + 2 (R212). -/
@[simp] theorem pc_add_sub (p : Word) : p + 2 - 2 = p := by simp

end Sys2Proof.Machine
end

