-- ==== Sys2Proof/Laws/PerInstr.lean ====
section
/-! SUPPORT. The statement made per instruction: the word of an instruction has the fixed bits of its row of the opcode
map (R81, R90). -/

namespace Sys2Proof.Laws.EncodingRow

/-- The encoding of `i` matches the row of the opcode map `i` belongs to, and `i` is well formed. -/
def Statement (i : Instr) : Prop := encode i &&& i.row.mask = i.row.pattern ∧ i.wellFormed = true

/-- Equality of words, bit by bit. -/
theorem word_ext {a b : Word} (h : ∀ k < 16, a.getLsbD k = b.getLsbD k) : a = b :=
  BitVec.eq_of_getLsbD_eq fun k hk => h k hk

theorem nnn_row (o : BitVec 4) (nnn : BitVec 12) (p : Word)
    (hp : ∀ k < 16, p.getLsbD k = if k < 12 then false else o.getLsbD (k - 12)) :
    encodeNNN o nnn &&& 0xF000 = p := by
  apply word_ext
  intro k hk
  rw [BitVec.getLsbD_and, bit_encodeNNN, hp k hk]
  interval_cases k <;> simp

theorem xff_row (o : BitVec 4) (x : Reg) (nn : Byte) (p : Word)
    (hp : ∀ k < 16, p.getLsbD k = if k < 8 then nn.getLsbD k else if k < 12 then false else o.getLsbD (k - 12)) :
    encodeXNN o x nn &&& 0xF0FF = p := by
  apply word_ext
  intro k hk
  rw [BitVec.getLsbD_and, encodeXNN_eq, bit_encodeNNN, bit_lowByte, hp k hk]
  interval_cases k <;> simp

theorem xyf_row (o : BitVec 4) (x y : Reg) (n : BitVec 4) (p : Word)
    (hp : ∀ k < 16, p.getLsbD k = if k < 4 then n.getLsbD k else if k < 12 then false else o.getLsbD (k - 12)) :
    encodeXYN o x y n &&& 0xF00F = p := by
  apply word_ext
  intro k hk
  rw [BitVec.getLsbD_and, encodeXYN_eq, encodeXNN_eq, bit_encodeNNN, bit_lowByte, bit_lowNibble, hp k hk]
  interval_cases k <;> simp

theorem nop : Statement .nop := ⟨by decide, instr_wellFormed _⟩
theorem cls : Statement .cls := ⟨by decide, instr_wellFormed _⟩
theorem ret : Statement .ret := ⟨by decide, instr_wellFormed _⟩
theorem jp (nnn : BitVec 12) : Statement (.jp nnn) := ⟨nnn_row _ nnn 0x1000 (by decide), instr_wellFormed _⟩
theorem call (nnn : BitVec 12) : Statement (.call nnn) := ⟨nnn_row _ nnn 0x2000 (by decide), instr_wellFormed _⟩
theorem ldINnn (nnn : BitVec 12) : Statement (.ldINnn nnn) := ⟨nnn_row _ nnn 0xA000 (by decide), instr_wellFormed _⟩
theorem jpV0 (nnn : BitVec 12) : Statement (.jpV0 nnn) := ⟨nnn_row _ nnn 0xB000 (by decide), instr_wellFormed _⟩
theorem seVxNn (x : Reg) (nn : Byte) : Statement (.seVxNn x nn) :=
  ⟨nnn_row _ (x.toBits ++ nn) 0x3000 (by decide), instr_wellFormed _⟩
theorem sneVxNn (x : Reg) (nn : Byte) : Statement (.sneVxNn x nn) :=
  ⟨nnn_row _ (x.toBits ++ nn) 0x4000 (by decide), instr_wellFormed _⟩
theorem ldVxNn (x : Reg) (nn : Byte) : Statement (.ldVxNn x nn) :=
  ⟨nnn_row _ (x.toBits ++ nn) 0x6000 (by decide), instr_wellFormed _⟩
theorem addVxNn (x : Reg) (nn : Byte) : Statement (.addVxNn x nn) :=
  ⟨nnn_row _ (x.toBits ++ nn) 0x7000 (by decide), instr_wellFormed _⟩
theorem rndVxNn (x : Reg) (nn : Byte) : Statement (.rndVxNn x nn) :=
  ⟨nnn_row _ (x.toBits ++ nn) 0xC000 (by decide), instr_wellFormed _⟩
theorem drw (x y : Reg) (n : BitVec 4) : Statement (.drw x y n) :=
  ⟨nnn_row _ (x.toBits ++ (y.toBits ++ n)) 0xD000 (by decide), instr_wellFormed _⟩
theorem seVxVy (x y : Reg) : Statement (.seVxVy x y) := ⟨xyf_row _ x y _ 0x5000 (by decide), instr_wellFormed _⟩
theorem ldVxVy (x y : Reg) : Statement (.ldVxVy x y) := ⟨xyf_row _ x y _ 0x8000 (by decide), instr_wellFormed _⟩
theorem orVxVy (x y : Reg) : Statement (.orVxVy x y) := ⟨xyf_row _ x y _ 0x8001 (by decide), instr_wellFormed _⟩
theorem andVxVy (x y : Reg) : Statement (.andVxVy x y) := ⟨xyf_row _ x y _ 0x8002 (by decide), instr_wellFormed _⟩
theorem xorVxVy (x y : Reg) : Statement (.xorVxVy x y) := ⟨xyf_row _ x y _ 0x8003 (by decide), instr_wellFormed _⟩
theorem addVxVy (x y : Reg) : Statement (.addVxVy x y) := ⟨xyf_row _ x y _ 0x8004 (by decide), instr_wellFormed _⟩
theorem subVxVy (x y : Reg) : Statement (.subVxVy x y) := ⟨xyf_row _ x y _ 0x8005 (by decide), instr_wellFormed _⟩
theorem shrVx (x y : Reg) : Statement (.shrVx x y) := ⟨xyf_row _ x y _ 0x8006 (by decide), instr_wellFormed _⟩
theorem subnVxVy (x y : Reg) : Statement (.subnVxVy x y) := ⟨xyf_row _ x y _ 0x8007 (by decide), instr_wellFormed _⟩
theorem shlVx (x y : Reg) : Statement (.shlVx x y) := ⟨xyf_row _ x y _ 0x800E (by decide), instr_wellFormed _⟩
theorem sneVxVy (x y : Reg) : Statement (.sneVxVy x y) := ⟨xyf_row _ x y _ 0x9000 (by decide), instr_wellFormed _⟩
theorem skp (x : Reg) : Statement (.skp x) := ⟨xff_row _ x _ 0xE09E (by decide), instr_wellFormed _⟩
theorem sknp (x : Reg) : Statement (.sknp x) := ⟨xff_row _ x _ 0xE0A1 (by decide), instr_wellFormed _⟩
theorem ldVxDt (x : Reg) : Statement (.ldVxDt x) := ⟨xff_row _ x _ 0xF007 (by decide), instr_wellFormed _⟩
theorem ldVxK (x : Reg) : Statement (.ldVxK x) := ⟨xff_row _ x _ 0xF00A (by decide), instr_wellFormed _⟩
theorem ldDtVx (x : Reg) : Statement (.ldDtVx x) := ⟨xff_row _ x _ 0xF015 (by decide), instr_wellFormed _⟩
theorem ldStVx (x : Reg) : Statement (.ldStVx x) := ⟨xff_row _ x _ 0xF018 (by decide), instr_wellFormed _⟩
theorem addIVx (x : Reg) : Statement (.addIVx x) := ⟨xff_row _ x _ 0xF01E (by decide), instr_wellFormed _⟩
theorem ldFVx (x : Reg) : Statement (.ldFVx x) := ⟨xff_row _ x _ 0xF029 (by decide), instr_wellFormed _⟩
theorem ldBVx (x : Reg) : Statement (.ldBVx x) := ⟨xff_row _ x _ 0xF033 (by decide), instr_wellFormed _⟩
theorem ldMemVx (x : Reg) : Statement (.ldMemVx x) := ⟨xff_row _ x _ 0xF055 (by decide), instr_wellFormed _⟩
theorem ldVxMem (x : Reg) : Statement (.ldVxMem x) := ⟨xff_row _ x _ 0xF065 (by decide), instr_wellFormed _⟩

end Sys2Proof.Laws.EncodingRow
end

