-- ==== Sys2Proof/Tests/Slice0.lean ====
section
/-! SUPPORT. Tests of one step on small states, their expected results taken from the worked examples and tables of
95_test_vectors.md; decoding of words written out from the formats of R81 and the rows of R90; and for every statement
with hypotheses a witness that meets them. -/

namespace Sys2Proof.Tests

open Sys2Proof Sys2Proof.Machine

/-! One theorem after another: elaborated side by side, so many kernel evaluations ask for more threads than a memory
limit may allow. -/

set_option Elab.async false

/-! ## Helpers: a small start state, one word run at `PC`, what is looked at afterwards -/

/-- The reset state with some registers set. -/
def start (regs : List (Reg × Byte)) : State := regs.foldl (fun s p => s.setReg p.1 p.2) State.reset

/-- A state with some bytes stored from an address up. -/
def bytesAt (a : Nat) (bytes : List Byte) (s : State) : State := s.storeBytes a bytes

/-- A state with some keys down. -/
def keysDown (down : List Key) (s : State) : State := down.foldl (fun s k => keyCommand k true s) s

/-- The next state a result holds. -/
def nextOf : Result → Option State
  | .next t => some t
  | _ => none

theorem next_of_nextOf {r : Result} {t : State} (h : nextOf r = some t) : r = .next t := by
  cases r <;> simp_all [nextOf]

/-- One STEP over a word placed at `PC`, and a part of what it leaves. -/
def see {α : Type} (op : Word) (s : State) (f : State → α) : Option α := (nextOf (step (s.placeWord op))).map f

/-- Some registers of a state. -/
def regs (rs : List Reg) (t : State) : List Byte := rs.map t.reg

/-- Some bytes of memory from an address up. -/
def bytes (a count : Nat) (t : State) : List Byte := (List.range count).map fun k => t.byte (a + k)

/-! ## Well-formedness: an ill-formed term for each check, and a well-formed one -/

/-- Illegal words of table T0 and one more per group of R84. -/
theorem test_illegal_words_are_refused :
    ([0x0001, 0x00E1, 0x0123, 0x5011, 0x8128, 0x812F, 0x9121, 0xE19F, 0xF100, 0xF175] : List Word).all
      (fun op => !legalWord op && (decode op).isNone) = true := by decide +kernel

theorem test_legal_words_are_accepted :
    ([0x0000, 0x00E0, 0x00EE, 0x5120, 0x8126, 0x812E, 0x9120, 0xE19E, 0xE1A1, 0xF165] : List Word).all
      (fun op => legalWord op && (decode op).isSome) = true := by decide +kernel

/-- T5: a program of 3584 bytes fits and one of 3585 does not (R192). -/
theorem test_load_bound :
    loadFits (List.replicate 3585 0) = false ∧ loadFits (List.replicate 3584 0) = true := by decide +kernel

/-- A row that is not in the opcode map is no instruction's row: SUPER-CHIP's `FX75` (R91, T0). -/
theorem test_foreign_row_is_not_in_the_map :
    opcodeMap.contains ⟨"LD_R__Vx", 0xF0FF, 0xF075⟩ = false ∧ Instr.wellFormed (.drw 15 15 15) = true := by
  decide +kernel

/-! ## Decoding: one word per row, its nibbles written out from the formats of R81 and the rows of R90 -/

/-- Rows 1 to 10. -/
theorem test_decode_rows_low :
    decode (0b0000#4 ++ 0b0000#4 ++ 0b0000#4 ++ 0b0000#4) = some .nop ∧
    decode (0b0000#4 ++ 0b0000#4 ++ 0b1110#4 ++ 0b0000#4) = some .cls ∧
    decode (0b0000#4 ++ 0b0000#4 ++ 0b1110#4 ++ 0b1110#4) = some .ret ∧
    decode (0b0001#4 ++ 0b1010#4 ++ 0b0101#4 ++ 0b1001#4) = some (.jp 0xA59) ∧
    decode (0b0010#4 ++ 0b1010#4 ++ 0b0101#4 ++ 0b1001#4) = some (.call 0xA59) ∧
    decode (0b0011#4 ++ 0b1101#4 ++ 0b0110#4 ++ 0b1011#4) = some (.seVxNn 13 0x6B) ∧
    decode (0b0100#4 ++ 0b1101#4 ++ 0b0110#4 ++ 0b1011#4) = some (.sneVxNn 13 0x6B) ∧
    decode (0b0101#4 ++ 0b1101#4 ++ 0b0110#4 ++ 0b0000#4) = some (.seVxVy 13 6) ∧
    decode (0b0110#4 ++ 0b1101#4 ++ 0b0110#4 ++ 0b1011#4) = some (.ldVxNn 13 0x6B) ∧
    decode (0b0111#4 ++ 0b1101#4 ++ 0b0110#4 ++ 0b1011#4) = some (.addVxNn 13 0x6B) := by decide +kernel

/-- Rows 11 to 20. -/
theorem test_decode_rows_alu :
    decode (0b1000#4 ++ 0b0011#4 ++ 0b1100#4 ++ 0b0000#4) = some (.ldVxVy 3 12) ∧
    decode (0b1000#4 ++ 0b0011#4 ++ 0b1100#4 ++ 0b0001#4) = some (.orVxVy 3 12) ∧
    decode (0b1000#4 ++ 0b0011#4 ++ 0b1100#4 ++ 0b0010#4) = some (.andVxVy 3 12) ∧
    decode (0b1000#4 ++ 0b0011#4 ++ 0b1100#4 ++ 0b0011#4) = some (.xorVxVy 3 12) ∧
    decode (0b1000#4 ++ 0b0011#4 ++ 0b1100#4 ++ 0b0100#4) = some (.addVxVy 3 12) ∧
    decode (0b1000#4 ++ 0b0011#4 ++ 0b1100#4 ++ 0b0101#4) = some (.subVxVy 3 12) ∧
    decode (0b1000#4 ++ 0b0011#4 ++ 0b1100#4 ++ 0b0110#4) = some (.shrVx 3 12) ∧
    decode (0b1000#4 ++ 0b0011#4 ++ 0b1100#4 ++ 0b0111#4) = some (.subnVxVy 3 12) ∧
    decode (0b1000#4 ++ 0b0011#4 ++ 0b1100#4 ++ 0b1110#4) = some (.shlVx 3 12) ∧
    decode (0b1001#4 ++ 0b0011#4 ++ 0b1100#4 ++ 0b0000#4) = some (.sneVxVy 3 12) := by decide +kernel

/-- Rows 21 to 35. -/
theorem test_decode_rows_high :
    decode (0b1010#4 ++ 0b1010#4 ++ 0b0101#4 ++ 0b1001#4) = some (.ldINnn 0xA59) ∧
    decode (0b1011#4 ++ 0b1010#4 ++ 0b0101#4 ++ 0b1001#4) = some (.jpV0 0xA59) ∧
    decode (0b1100#4 ++ 0b1101#4 ++ 0b0110#4 ++ 0b1011#4) = some (.rndVxNn 13 0x6B) ∧
    decode (0b1101#4 ++ 0b0011#4 ++ 0b1100#4 ++ 0b0101#4) = some (.drw 3 12 5) ∧
    decode (0b1110#4 ++ 0b1001#4 ++ 0b1001#4 ++ 0b1110#4) = some (.skp 9) ∧
    decode (0b1110#4 ++ 0b1001#4 ++ 0b1010#4 ++ 0b0001#4) = some (.sknp 9) ∧
    decode (0b1111#4 ++ 0b1001#4 ++ 0b0000#4 ++ 0b0111#4) = some (.ldVxDt 9) ∧
    decode (0b1111#4 ++ 0b1001#4 ++ 0b0000#4 ++ 0b1010#4) = some (.ldVxK 9) ∧
    decode (0b1111#4 ++ 0b1001#4 ++ 0b0001#4 ++ 0b0101#4) = some (.ldDtVx 9) ∧
    decode (0b1111#4 ++ 0b1001#4 ++ 0b0001#4 ++ 0b1000#4) = some (.ldStVx 9) ∧
    decode (0b1111#4 ++ 0b1001#4 ++ 0b0001#4 ++ 0b1110#4) = some (.addIVx 9) ∧
    decode (0b1111#4 ++ 0b1001#4 ++ 0b0010#4 ++ 0b1001#4) = some (.ldFVx 9) ∧
    decode (0b1111#4 ++ 0b1001#4 ++ 0b0011#4 ++ 0b0011#4) = some (.ldBVx 9) ∧
    decode (0b1111#4 ++ 0b1001#4 ++ 0b0101#4 ++ 0b0101#4) = some (.ldMemVx 9) ∧
    decode (0b1111#4 ++ 0b1001#4 ++ 0b0110#4 ++ 0b0101#4) = some (.ldVxMem 9) := by decide +kernel

/-- The words of the source's own examples encode as it writes them (S1, S2), and the table's numbering agrees. -/
theorem test_encode_and_table_word :
    encode .cls = 0x00E0 ∧ encode (.ldVxNn 0 5) = 0x6005 ∧ encode (.addVxNn 0 1) = 0x7001 ∧
    decodeTableWord 16 0x8126 = some (.shrVx 1 2) ∧ decodeTableWord 16 0x5011 = none := by decide +kernel

/-! ## The step cycle (T0) -/

theorem test_nop_at_the_top_of_memory :
    see 0x0000 State.reset (fun t => t.pc) = some 0x202 ∧
    see 0x0000 { State.reset with pc := 0xFFE } (fun t => (t.pc, t.faultOutput)) = some (0x1000, 0, 0, 0) := by
  decide +kernel

theorem test_fetch_faults :
    (nextOf (step { State.reset with pc := 0x1000 })).map (fun t => (t.faultOutput, t.pc)) =
      some ((1, 1, 0x1000), 0x1000) ∧
    (nextOf (step { State.reset with pc := 0xFFF })).map (fun t => (t.faultOutput, t.pc)) =
      some ((1, 1, 0xFFF), 0xFFF) := by decide +kernel

theorem test_odd_fetch :
    (nextOf (step (bytesAt 0x201 [0x60, 0x07] { State.reset with pc := 0x201 }))).map (fun t => (t.reg 0, t.pc)) =
      some (7, 0x203) := by decide +kernel

theorem test_unknown_opcode :
    (nextOf (step (bytesAt 0x200 [0x50, 0x11] State.reset))).map (fun t => (t.faultOutput, t.pc)) =
      some ((2, 0, 0x5011), 0x202) ∧
    see 0x00E1 State.reset (fun t => t.faultOutput) = some (2, 0, 0x00E1) := by decide +kernel

/-- T0: with a fault latched a STEP changes nothing. -/
theorem test_halted :
    nextOf (step (State.reset.latch .unknownOpcode .none 0x5011)) =
      some (State.reset.latch .unknownOpcode .none 0x5011) := by decide +kernel

/-! ## Control flow (T1) -/

theorem test_jp :
    see 0x1201 State.reset (fun t => t.pc) = some 0x201 ∧ see 0x1FFF State.reset (fun t => t.pc) = some 0xFFF := by
  decide +kernel

theorem test_call :
    see 0x2210 { State.reset with pc := 0x204 } (fun t => (t.stack[0], t.sp, t.pc)) = some (0x206, 1, 0x210) ∧
    see 0x2300 { State.reset with pc := 0x204, sp := 15 } (fun t => (t.stack[15], t.sp, t.pc)) =
      some (0x206, 16, 0x300) := by decide +kernel

theorem test_call_overflow :
    see 0x2300 { State.reset with pc := 0x204, sp := 16 } (fun t => (t.faultOutput, t.sp, t.pc)) =
      some ((1, 3, 0x204), 16, 0x206) := by decide +kernel

theorem test_ret :
    see 0x00EE { State.reset with pc := 0x212, sp := 1, stack := State.reset.stack.set 0 0x206 }
      (fun t => (t.sp, t.pc)) = some (0, 0x206) := by decide +kernel

theorem test_ret_underflow :
    see 0x00EE State.reset (fun t => (t.faultOutput, t.sp, t.pc)) = some ((1, 4, 0x200), 0, 0x202) := by decide +kernel

theorem test_skips_on_immediate :
    see 0x3105 (start [(1, 5)]) (fun t => t.pc) = some 0x204 ∧
    see 0x3105 (start [(1, 6)]) (fun t => t.pc) = some 0x202 ∧
    see 0x4105 (start [(1, 5)]) (fun t => t.pc) = some 0x202 ∧
    see 0x4105 (start [(1, 6)]) (fun t => t.pc) = some 0x204 := by decide +kernel

theorem test_skips_on_registers :
    see 0x5120 (start [(1, 9), (2, 9)]) (fun t => t.pc) = some 0x204 ∧
    see 0x5120 (start [(1, 9), (2, 8)]) (fun t => t.pc) = some 0x202 ∧
    see 0x9120 (start [(1, 9), (2, 8)]) (fun t => t.pc) = some 0x204 ∧
    see 0x9110 (start [(1, 9), (2, 8)]) (fun t => t.pc) = some 0x202 := by decide +kernel

theorem test_skip_past_the_top :
    see 0x3000 { State.reset with pc := 0xFFE } (fun t => (t.pc, t.faultOutput)) = some (0x1002, 0, 0, 0) := by
  decide +kernel

theorem test_jp_v0 :
    see 0xB300 (start [(0, 4)]) (fun t => t.pc) = some 0x304 ∧
    see 0xBFFF (start [(0, 0xFF)]) (fun t => t.pc) = some 0x10FE ∧
    see 0xB200 (start [(2, 0x50)]) (fun t => t.pc) = some 0x200 := by decide +kernel

/-! ## ALU (T2) -/

theorem test_ld_immediate :
    see 0x6AFF State.reset (regs [10, 15]) = some [0xFF, 0] ∧ see 0x6F07 State.reset (regs [15]) = some [7] := by
  decide +kernel

theorem test_add_immediate :
    see 0x7001 (start [(0, 0xFF)]) (regs [0, 15]) = some [0, 0] ∧
    see 0x70FF (start [(0, 5)]) (regs [0, 15]) = some [4, 0] ∧
    see 0x7F02 (start [(15, 0xFF)]) (regs [15]) = some [1] := by decide +kernel

theorem test_copy_and_logic :
    see 0x8120 (start [(2, 0x7E)]) (regs [1, 2]) = some [0x7E, 0x7E] ∧
    see 0x8121 (start [(1, 0x0F), (2, 0xF1), (15, 1)]) (regs [1, 15]) = some [0xFF, 1] ∧
    see 0x8122 (start [(1, 0x3C), (2, 0x0F)]) (regs [1]) = some [0x0C] ∧
    see 0x8123 (start [(1, 0xFF), (2, 0x0F)]) (regs [1]) = some [0xF0] ∧
    see 0x8113 (start [(1, 0x5A)]) (regs [1]) = some [0] := by decide +kernel

/-- Rows of the table of `8XY4`. -/
theorem test_add :
    see 0x8124 (start [(1, 0xFF), (2, 0x01)]) (regs [1, 15]) = some [0x00, 1] ∧
    see 0x8124 (start [(1, 0xFF), (2, 0xFF)]) (regs [1, 15]) = some [0xFE, 1] ∧
    see 0x8124 (start [(1, 0x7F), (2, 0x01)]) (regs [1, 15]) = some [0x80, 0] ∧
    see 0x8124 (start [(1, 0x10), (2, 0x20)]) (regs [1, 15]) = some [0x30, 0] ∧
    see 0x8124 (start [(1, 0xAA), (2, 0x55)]) (regs [1, 15]) = some [0xFF, 0] := by decide +kernel

/-- Rows of the table of `8XY5`. -/
theorem test_sub :
    see 0x8125 (start [(1, 0x00), (2, 0x00)]) (regs [1, 15]) = some [0x00, 1] ∧
    see 0x8125 (start [(1, 0x00), (2, 0x01)]) (regs [1, 15]) = some [0xFF, 0] ∧
    see 0x8125 (start [(1, 0x7F), (2, 0x01)]) (regs [1, 15]) = some [0x7E, 1] ∧
    see 0x8125 (start [(1, 0x10), (2, 0x20)]) (regs [1, 15]) = some [0xF0, 0] ∧
    see 0x8125 (start [(1, 0x01), (2, 0xFF)]) (regs [1, 15]) = some [0x02, 0] := by decide +kernel

/-- Rows of the table of `8XY7`. -/
theorem test_subn :
    see 0x8127 (start [(1, 0x00), (2, 0x00)]) (regs [1, 15]) = some [0x00, 1] ∧
    see 0x8127 (start [(1, 0xFF), (2, 0x01)]) (regs [1, 15]) = some [0x02, 0] ∧
    see 0x8127 (start [(1, 0x00), (2, 0x01)]) (regs [1, 15]) = some [0x01, 1] ∧
    see 0x8127 (start [(1, 0x20), (2, 0x10)]) (regs [1, 15]) = some [0xF0, 0] ∧
    see 0x8127 (start [(1, 0xAA), (2, 0x55)]) (regs [1, 15]) = some [0xAB, 0] := by decide +kernel

/-- Rows of the table of `8XY6` and `8XYE`; `V[Y]` is not used. -/
theorem test_shifts :
    see 0x8126 (start [(1, 0x01), (2, 0xFF)]) (regs [1, 15, 2]) = some [0x00, 1, 0xFF] ∧
    see 0x812E (start [(1, 0x01), (2, 0xFF)]) (regs [1, 15, 2]) = some [0x02, 0, 0xFF] ∧
    see 0x8126 (start [(1, 0x7F), (2, 0xFF)]) (regs [1, 15, 2]) = some [0x3F, 1, 0xFF] ∧
    see 0x812E (start [(1, 0x7F), (2, 0xFF)]) (regs [1, 15, 2]) = some [0xFE, 0, 0xFF] ∧
    see 0x8126 (start [(1, 0x80), (2, 0xFF)]) (regs [1, 15, 2]) = some [0x40, 0, 0xFF] ∧
    see 0x812E (start [(1, 0x80), (2, 0xFF)]) (regs [1, 15, 2]) = some [0x00, 1, 0xFF] ∧
    see 0x8126 (start [(1, 0xAA), (2, 0xFF)]) (regs [1, 15, 2]) = some [0x55, 0, 0xFF] ∧
    see 0x812E (start [(1, 0xAA), (2, 0xFF)]) (regs [1, 15, 2]) = some [0x54, 1, 0xFF] := by
  decide +kernel

/-- The destination is `VF`: the flag is written last (R12). -/
theorem test_alias_destination_is_vf :
    see 0x8F24 (start [(15, 0xF3), (2, 0x20)]) (regs [15]) = some [1] ∧
    see 0x8F25 (start [(15, 0xF3), (2, 0x20)]) (regs [15]) = some [1] ∧
    see 0x8F27 (start [(15, 0xF3), (2, 0x20)]) (regs [15]) = some [0] ∧
    see 0x8F06 (start [(15, 0xF3)]) (regs [15]) = some [1] ∧
    see 0x8F0E (start [(15, 0x73)]) (regs [15]) = some [0] := by decide +kernel

/-- The source is `VF`, or both operands are one register: operands are read before anything is written (R12). -/
theorem test_alias_source :
    see 0x81F4 (start [(1, 0xF0), (15, 0x20)]) (regs [1, 15]) = some [0x10, 1] ∧
    see 0x81F5 (start [(1, 0xF0), (15, 0x20)]) (regs [1, 15]) = some [0xD0, 1] ∧
    see 0x81F7 (start [(1, 0xF0), (15, 0x20)]) (regs [1, 15]) = some [0x30, 0] ∧
    see 0x8114 (start [(1, 0x90)]) (regs [1, 15]) = some [0x20, 1] ∧
    see 0x8115 (start [(1, 0x90)]) (regs [1, 15]) = some [0x00, 1] := by decide +kernel

/-- The CXNN rows: the byte of the STEP is masked. -/
theorem test_rnd :
    (nextOf (perform (.step 0xA7) (State.reset.placeWord 0xC10F))).map (fun t => t.reg 1) = some 0x07 ∧
    (nextOf (perform (.step 0xA7) (State.reset.placeWord 0xC1FF))).map (fun t => t.reg 1) = some 0xA7 := by
  decide +kernel

/-! ## Index register and memory (T3) -/

theorem test_index :
    see 0xAFFF State.reset (fun t => t.i) = some 0xFFF ∧
    see 0xF21E { start [(2, 5)] with i := 0xFFE } (fun t => (t.i, t.reg 15)) = some (0x1003, 0) ∧
    see 0xF21E { start [(2, 1)] with i := 0xFFFF } (fun t => (t.i, t.reg 15)) = some (0, 0) ∧
    see 0xF029 (start [(0, 0x0F)]) (fun t => t.i) = some 75 ∧
    see 0xF029 (start [(0, 0xFF)]) (fun t => t.i) = some 1275 := by decide +kernel

theorem test_bcd :
    see 0xF033 { start [(0, 234)] with i := 0x300 } (bytes 0x300 3) = some [2, 3, 4] ∧
    see 0xF033 { start [(0, 255)] with i := 4093 } (fun t => (bytes 4093 3 t, t.faultOutput)) =
      some ([2, 5, 5], 0, 0, 0) := by decide +kernel

theorem test_bcd_out_of_bounds :
    see 0xF033 { start [(0, 255)] with i := 4094 } (fun t => (bytes 4094 2 t, t.faultOutput, t.pc)) =
      some ([0, 0], (1, 2, 0x200), 0x202) := by decide +kernel

theorem test_dump :
    see 0xF255 { start [(0, 0x11), (1, 0x22), (2, 0x33)] with i := 0x400 } (fun t => (bytes 0x400 4 t, t.i)) =
      some ([0x11, 0x22, 0x33, 0], 0x400) ∧
    see 0xF055 { start [(0, 0xAB)] with i := 4095 } (fun t => (bytes 4095 1 t, t.faultOutput)) =
      some ([0xAB], 0, 0, 0) := by decide +kernel

theorem test_dump_out_of_bounds :
    see 0xFF55 { start [(0, 7)] with i := 4080 } (fun t => (bytes 4080 1 t, t.faultOutput)) = some ([7], 0, 0, 0) ∧
    see 0xFF55 { start [(0, 7)] with i := 4081 } (fun t => (bytes 4081 1 t, t.faultOutput)) =
      some ([0], 1, 2, 0x200) := by decide +kernel

theorem test_load_registers :
    see 0xF265 (bytesAt 0x300 [2, 3, 4, 5] { start [(3, 0x77)] with i := 0x300 })
      (fun t => (regs [0, 1, 2, 3] t, t.i)) = some ([2, 3, 4, 0x77], 0x300) ∧
    see 0xF165 { start [(0, 9)] with i := 4095 } (fun t => (t.reg 0, t.faultOutput)) = some (9, 1, 2, 0x200) := by
  decide +kernel

/-- The reset state of a CORE whose parameter DUMP_LOAD_INCLUSIVE is false, with some registers set and `I` at an
address. -/
def exclusive (regs : List (Reg × Byte)) (a : Word) : State :=
  { start regs with params := ⟨defaultFont, false⟩, i := a }

/-- The exclusive bound (D5, the last lines of T3): `F255` writes two bytes, `F055` none, `FF55` at 4081 does not fault,
`F165` at 4095 loads one register. -/
theorem test_exclusive_bound :
    see 0xF255 (exclusive [(0, 0x11), (1, 0x22), (2, 0x33)] 0x400) (bytes 0x400 3) = some [0x11, 0x22, 0] ∧
    see 0xF055 (exclusive [(0, 0x11)] 0x400) (bytes 0x400 1) = some [0] ∧
    see 0xFF55 (exclusive [(14, 7)] 4081) (fun t => (t.byte 4095, t.faultOutput)) = some (7, 0, 0, 0) ∧
    see 0xF165 (bytesAt 4095 [9] (exclusive [(1, 5)] 4095)) (fun t => (regs [0, 1] t, t.faultOutput)) =
      some ([9, 5], 0, 0, 0) := by decide +kernel

/-! ## Display (T4) -/

/-- T4's state after the first `D121` at (63, 31): cells (63, 31) and (0, 31) on. -/
def corner : State := { start [(1, 63), (2, 31)] with
  i := 0x300, mem := [(0x300, 0xC0)], disp := Display.flip (Display.flip Display.blank 63 31) 0 31 }

theorem test_cls :
    see 0x00E0 { corner with v := corner.v.set 15 1 } (fun t => (t.disp, t.reg 15)) = some (Display.blank, 1) := by
  decide +kernel

theorem test_drw_wraps :
    see 0xD121 { corner with disp := Display.blank }
      (fun t => (t.displayOutput 63 31, t.displayOutput 0 31, t.displayOutput 62 31, t.reg 15)) =
      some (true, true, false, 0) ∧
    see 0xD121 corner (fun t => (t.disp, t.reg 15)) = some (Display.blank, 1) := by decide +kernel

theorem test_drw_collision_and_bounds :
    see 0xD122 (bytesAt 0x300 [0x80, 0x80] { State.reset with i := 0x300, disp := Display.flip Display.blank 0 0 })
      (fun t => (t.displayOutput 0 0, t.displayOutput 0 1, t.reg 15)) = some (false, true, 1) ∧
    see 0xD120 { start [(15, 1)] with i := 0xFFFF } (fun t => (t.faultOutput, t.reg 15)) = some ((0, 0, 0), 0) ∧
    see 0xD12F { start [(15, 1)] with i := 4081 } (fun t => (t.faultOutput, t.reg 15)) = some ((0, 0, 0), 0) ∧
    see 0xD12F { start [(15, 1)] with i := 4082 } (fun t => (t.faultOutput, t.reg 15)) =
      some ((1, 2, 0x200), 1) := by decide +kernel

/-- The coordinates are taken modulo 64 and 32, and read before the flag is written. -/
theorem test_drw_coordinates :
    see 0xD121 (bytesAt 0x300 [0x80] { start [(1, 0xFF), (2, 0xFF)] with i := 0x300 })
      (fun t => t.displayOutput 63 31) = some true ∧
    see 0xDF01 (bytesAt 0x300 [0x80] { start [(15, 3)] with i := 0x300 })
      (fun t => (t.displayOutput 3 0, t.reg 15)) = some (true, 0) := by decide +kernel

/-! ## Keys, timers and the host's commands (T5) -/

theorem test_key_skips :
    see 0xE19E (keysDown [3] (start [(1, 3)])) (fun t => t.pc) = some 0x204 ∧
    see 0xE19E (start [(1, 3)]) (fun t => t.pc) = some 0x202 ∧
    see 0xE1A1 (start [(1, 3)]) (fun t => t.pc) = some 0x204 ∧
    see 0xE1A1 (keysDown [3] (start [(1, 3)])) (fun t => t.pc) = some 0x202 := by decide +kernel

theorem test_key_index_faults :
    see 0xE19E { start [(1, 0x10)] with pc := 0x202 } (fun t => (t.faultOutput, t.pc)) =
      some ((1, 5, 0x202), 0x204) ∧
    see 0xE1A1 { start [(1, 0xFF)] with pc := 0x202 } (fun t => t.faultOutput) = some (1, 5, 0x202) := by
  decide +kernel

theorem test_wait_for_key :
    see 0xF50A (start [(5, 9)]) (fun t => (t.pc, t.reg 5)) = some (0x200, 9) ∧
    see 0xF50A (keysDown [9, 3] State.reset) (fun t => (t.pc, t.reg 5)) = some (0x202, 3) ∧
    see 0xF50A (keysDown [15] State.reset) (fun t => (t.pc, t.reg 5)) = some (0x202, 15) := by decide +kernel

theorem test_timer_copies :
    see 0xF307 { State.reset with dt := 0x2A } (fun t => (t.reg 3, t.dt)) = some (0x2A, 0x2A) ∧
    see 0xF015 (start [(0, 3)]) (fun t => (t.dt, t.st)) = some (3, 0) ∧
    see 0xF418 (start [(4, 0x10)]) (fun t => (t.dt, t.st)) = some (0, 0x10) := by decide +kernel

theorem test_timer_tick :
    (nextOf (perform .timerTick { State.reset with dt := 3, st := 1 })).map (fun t => (t.dt, t.st, t.toneCueOutput)) =
      some (2, 0, true) ∧
    (nextOf (perform .timerTick { State.reset with dt := 2, st := 0 })).map (fun t => (t.dt, t.st, t.toneCueOutput)) =
      some (1, 0, false) ∧
    (nextOf (perform .timerTick { State.reset with dt := 0, st := 2 })).map (fun t => (t.dt, t.st, t.toneCueOutput)) =
      some (0, 1, false) := by decide +kernel

theorem test_key_command :
    (nextOf (perform (.key 7 true) State.reset)).map (fun t => (t.key 7, t.key 6)) = some (true, false) ∧
    (nextOf (perform (.key 7 false) (keysDown [7] State.reset))).map (fun t => t.key 7) = some false := by
  decide +kernel

theorem test_load_overflow :
    (nextOf (perform (.load (List.replicate 3585 1)) State.reset)).map (fun t => (t.faultOutput, t.mem)) =
      some ((3, 0, 0), []) := by decide +kernel

theorem test_load :
    (nextOf (perform (.load [0x60, 0x05, 0x70, 0x01]) State.reset)).map (fun t => (bytes 0x200 5 t, t.pc)) =
      some ([0x60, 0x05, 0x70, 0x01, 0], 0x200) := by decide +kernel

theorem test_reset_command :
    nextOf (perform .reset { corner with fault := ⟨.unknownOpcode, .none, 0x5011⟩, sp := 3 }) = some State.reset := by
  decide +kernel

/-- The word the host places is the one the first step after reset runs, and it needs no loaded program. -/
theorem test_with_fetch_word :
    (nextOf (step (State.reset.withFetchWord 16 0x6AFF))).map (regs [10]) = some [0xFF] := by decide +kernel

/-- Another font: memory below 80 reads as it after RESET, and a byte written over it is kept until then (R7, R56,
R193). -/
theorem test_other_font :
    (nextOf (perform .reset (bytesAt 79 [3] (State.resetWith ⟨Vector.replicate 80 0xAA, true⟩)))).map (bytes 78 3) =
      some [0xAA, 0xAA, 0] ∧
    bytes 78 3 (bytesAt 79 [3] (State.resetWith ⟨Vector.replicate 80 0xAA, true⟩)) = [0xAA, 3, 0] := by decide +kernel

/-- The font area holds the default glyphs: glyph 0 at address 0, glyph 15's last byte at 79, then zeros (R31). -/
theorem test_font :
    bytes 0 5 State.reset = [0xF0, 0x90, 0x90, 0x90, 0xF0] ∧ bytes 79 2 State.reset = [0x80, 0x00] := by
  decide +kernel

/-! ## Witnesses: for each statement with hypotheses a concrete state and operands that meet them together, for each
clause one at a boundary of its range. A statement that is not named here has no hypothesis. -/

/-- A state whose last fetchable address is `PC` = 4094, holding this word. -/
def last (op : Word) : State := ({ State.reset with pc := 4094 } : State).placeWord op

/-- A state with a fault latched. -/
def faulted : State := State.reset.latch .outOfBounds .memData 0x200

/-- The reset state with `I` at an address. -/
def indexed (a : Word) : State := { State.reset with i := a }

theorem witness_DecodedWordIsTheEncoding : decode 0x812E = some (.shlVx 1 2) := by decide +kernel

theorem witness_DecodeFollowsTheOpcodeMap :
    decode 0x5011 = none ∧ decode 0xF065 = some (.ldVxMem 0) := by decide +kernel

theorem witness_StepRunsTheDecodedInstruction :
    (last 0x6AFF).Good ∧ (last 0x6AFF).pc.toNat + 1 < 4096 ∧
    decode (wordOfBytes ((last 0x6AFF).byte (last 0x6AFF).pc.toNat)
      ((last 0x6AFF).byte ((last 0x6AFF).pc.toNat + 1))) = some (.ldVxNn 10 0xFF) := by decide +kernel

theorem witness_FetchReadsTheWordOrFaults :
    (({ State.reset with pc := 4095 } : State).Good ∧ 4096 ≤ ({ State.reset with pc := 4095 } : State).pc.toNat + 1) ∧
    ((last 0x6AFF).Good ∧ (last 0x6AFF).pc.toNat + 1 < 4096) := by decide +kernel

theorem witness_UnknownWordRaisesUnknownOpcode :
    ((last 0x5011).Good ∧ (last 0x5011).pc.toNat + 1 < 4096 ∧ decode (last 0x5011).fetchWord = none) ∧
    ((last 0x5010).Good ∧ (last 0x5010).pc.toNat + 1 < 4096 ∧
      decode (last 0x5010).fetchWord = some (.seVxVy 0 1)) := by decide +kernel

theorem witness_HaltedCoreIgnoresSteps : ¬ faulted.Good ∧ faulted.randIn = none := by decide +kernel

theorem witness_NopOnlyAdvances :
    State.reset.Good ∧ State.reset.pc.toNat + 1 < 4096 ∧ State.reset.fetchWord = 0x0000 := by decide +kernel

theorem witness_ReturnPopsTheStack :
    0 < ({ State.reset with sp := 1 } : State).sp.val ∧ 0 < ({ State.reset with sp := 16 } : State).sp.val ∧
    State.reset.sp.val = 0 := by decide +kernel

theorem witness_CallPushesThenJumps :
    State.reset.sp.val < 16 ∧ ({ State.reset with sp := 15 } : State).sp.val < 16 ∧
    ({ State.reset with sp := 16 } : State).sp.val = 16 := by decide +kernel

/-- The inner hypothesis: the two operands are one register. -/
theorem witness_RegisterSkips : ∃ x y : Reg, x = y := ⟨15, 15, rfl⟩

/-- The inner hypothesis of the six flag instructions: the destination is not `VF`; the statement's flag clause has
none, so X = 15 is in it. -/
theorem witness_FlagArithmetic : ∃ x : Reg, x ≠ 15 := ⟨14, by decide⟩

theorem witness_RandomByteIsMasked :
    (State.reset.present (some 0xA7)).randIn = some 0xA7 ∧ State.reset.randIn = none := by decide +kernel

theorem witness_DecimalDigitsAreStored :
    (indexed 4093).i.toNat + 2 < 4096 ∧ (indexed 4093).MemWf ∧
    4096 ≤ (indexed 4094).i.toNat + 2 := by decide +kernel

theorem witness_RegisterDump :
    (indexed 4080).params.dumpLoadInclusive = true ∧ (indexed 4081).params.dumpLoadInclusive = true ∧
    (indexed 4080).i.toNat + (15 : Reg).val < 4096 ∧ (indexed 4080).MemWf ∧ (15 : Reg) ≤ 15 ∧
    4096 ≤ (indexed 4081).i.toNat + (15 : Reg).val := by decide +kernel

theorem witness_RegisterLoad :
    (indexed 4095).params.dumpLoadInclusive = true ∧
    (indexed 4095).i.toNat + (0 : Reg).val < 4096 ∧ (0 : Reg) ≤ 0 ∧ (0 : Reg) < 1 ∧
    4096 ≤ (indexed 4095).i.toNat + (1 : Reg).val := by decide +kernel

theorem witness_BlockMovesUnderTheExclusiveBound :
    (exclusive [] 4081).params.dumpLoadInclusive = false ∧ (exclusive [] 4082).params.dumpLoadInclusive = false ∧
    (exclusive [] 4081).i.toNat + (15 : Reg).val ≤ 4096 ∧ (exclusive [] 4081).MemWf ∧ (14 : Reg) < 15 ∧
    (15 : Reg) ≤ 15 ∧ ((15 : Reg).val ≠ 0 ∧ 4096 < (exclusive [] 4082).i.toNat + (15 : Reg).val) := by decide +kernel

/-- A dump at the top of memory, its result, and another machine with those memory contents, that `I` and that bound: the
inclusive bound stores `V[0]` and `V[1]`. -/
theorem witness_DumpThenLoadRestoresRegisters :
    ∃ s s' t : State, s.MemWf ∧ (s.blockCount 1 = 0 ∨ s.i.toNat + (s.blockCount 1 - 1) < 4096) ∧
      exec (.ldMemVx 1) s = .next t ∧ (∀ a, s'.byte a = t.byte a) ∧ s'.i = t.i ∧
      s'.params.dumpLoadInclusive = t.params.dumpLoadInclusive ∧ s.blockCount 1 = 2 ∧ s'.reg 1 ≠ s.reg 1 :=
  ⟨{ start [(0, 0x11), (1, 0x22)] with i := 4094 }, { State.reset with i := 4094, mem := [(4094, 0x11), (4095, 0x22)] },
   { start [(0, 0x11), (1, 0x22)] with i := 4094, mem := [(4094, 0x11), (4095, 0x22)] },
   by decide +kernel, by decide +kernel, next_of_nextOf (by decide +kernel), fun _ => rfl, rfl, rfl, rfl,
   by decide +kernel⟩

/-- The same with the exclusive bound, which stores `V[0]` alone; and the dump of no register. -/
theorem witness_DumpThenLoadExclusive :
    (exclusive [] 4095).MemWf ∧ (exclusive [] 4095).i.toNat + ((exclusive [] 4095).blockCount 1 - 1) < 4096 ∧
    (exclusive [] 4095).blockCount 1 = 1 ∧ (exclusive [] 0xFFFF).blockCount 0 = 0 := by decide +kernel

/-- Two registers dumped at `PC` = 0x202, `I` at the same address. -/
theorem witness_DumpedWordIsFetchedNext :
    ∃ s t : State, s.MemWf ∧ 2 ≤ s.blockCount 1 ∧ s.i = s.pc ∧ s.i.toNat + (s.blockCount 1 - 1) < 4096 ∧
      exec (.ldMemVx 1) s = .next t :=
  ⟨{ start [(0, 0x6A), (1, 0xFF)] with i := 0x202, pc := 0x202 },
   { start [(0, 0x6A), (1, 0xFF)] with i := 0x202, pc := 0x202, mem := [(0x202, 0x6A), (0x203, 0xFF)] },
   by decide +kernel, by decide +kernel, rfl, by decide +kernel, next_of_nextOf (by decide +kernel)⟩

/-- A sprite row `C0` at (63, 31): its first bit covers cell (63, 31) and none covers (62, 31). -/
theorem witness_sprite :
    SpriteCovers corner.spriteRow (corner.reg 1).toNat (corner.reg 2).toNat 1 63 31 ∧
    ¬ SpriteCovers corner.spriteRow (corner.reg 1).toNat (corner.reg 2).toNat 1 62 31 := by
  unfold SpriteCovers; decide +kernel

theorem witness_DrawXorsTheSprite :
    ((0 : BitVec 4) = 0) ∧ corner.i.toNat + ((1 : BitVec 4).toNat - 1) < 4096 ∧
    (indexed 4081).i.toNat + ((15 : BitVec 4).toNat - 1) < 4096 ∧ (1 : Reg) ≠ 15 ∧ (2 : Reg) ≠ 15 ∧
    Display.cell corner.disp 63 31 = true ∧ Display.cell Display.blank 63 31 = false ∧
    ((15 : BitVec 4) ≠ 0 ∧ 4096 ≤ (indexed 4082).i.toNat + ((15 : BitVec 4).toNat - 1)) := by decide +kernel

/-- The hypotheses of the double draw, on the state of T4 with the display blank. -/
theorem witness_SecondDrawFlag :
    (1 : Reg) ≠ 15 ∧ (2 : Reg) ≠ 15 ∧ corner.i.toNat + ((1 : BitVec 4).toNat - 1) < 4096 ∧
    ∃ t u, exec (.drw 1 2 1) { corner with disp := Display.blank } = .next t ∧ exec (.drw 1 2 1) t = .next u := by
  exact ⟨by decide, by decide, by decide +kernel, corner, { corner with disp := Display.blank, v := corner.v.set 15 1 },
    next_of_nextOf (by decide +kernel), next_of_nextOf (by decide +kernel)⟩

theorem witness_KeySkips :
    ((start [(1, 15)]).reg 1).toNat = (15 : Key).val ∧ 15 < ((start [(1, 16)]).reg 1).toNat := by decide +kernel

theorem witness_WaitForKey :
    (∀ k : Key, State.reset.keys[k] = false) ∧
    ((keysDown [9, 3] State.reset).keys[(3 : Key)] = true ∧
      ∀ j : Key, j < 3 → (keysDown [9, 3] State.reset).keys[j] = false) ∧
    ((keysDown [15] State.reset).keys[(15 : Key)] = true ∧
      ∀ j : Key, j < 15 → (keysDown [15] State.reset).keys[j] = false) := by decide +kernel

theorem witness_WaitStallsTheStep :
    (last 0xF50A).Good ∧ (last 0xF50A).pc.toNat + 1 < 4096 ∧ decode (last 0xF50A).fetchWord = some (.ldVxK 5) ∧
    ∀ k : Key, (last 0xF50A).keys[k] = false := by decide +kernel

/-- One execution for the statements over every instruction that answers a next state: the second clause of the rule
on `VF`, with X = 14. -/
theorem witness_VfIsWrittenOnlyByItsDefiners :
    (∃ t, exec (.ldVxNn 14 7) State.reset = .next t) ∧ (14 : Reg) ≠ 15 ∧
    (∃ t, exec (.drw 1 2 2) (indexed 4095) = .next t ∧ t.fault.kind = .outOfBounds) :=
  ⟨⟨_, rfl⟩, by decide, ⟨_, rfl, rfl⟩⟩

/-- The three clauses of R26: a fetch fault, a fault of the decode phase, a good end on an instruction. -/
theorem witness_PcAfterEachInstruction :
    (∃ t, step { State.reset with pc := 4095 } = .next t ∧ 4096 ≤ (4095 : Word).toNat + 1) ∧
    (∃ t, step (last 0x5011) = .next t ∧ (last 0x5011).pc.toNat + 1 < 4096 ∧ ¬ t.Good) ∧
    (∃ t, step (last 0x3000) = .next t ∧ decode (last 0x3000).fetchWord = some (.seVxNn 0 0) ∧ t.Good) := by
  refine ⟨⟨{ State.reset with pc := 4095, fault := ⟨.outOfBounds, .memFetch, 4095⟩ }, rfl, by decide⟩, ?_, ?_⟩
  · exact ⟨{ last 0x5011 with pc := 4096, fault := ⟨.unknownOpcode, .none, 0x5011⟩ }, rfl, by decide +kernel,
      by decide +kernel⟩
  · exact ⟨{ last 0x3000 with pc := 4098 }, rfl, by decide +kernel, by decide +kernel⟩

/-- Each clause of the write table is met by an execution that does change the piece of state. -/
theorem witness_InstructionsWriteOnlyTheirState :
    (nextOf (exec (.ldVxNn 0 1) State.reset)).map (fun t => t.v) ≠ some State.reset.v ∧
    (nextOf (exec (.jp 0) State.reset)).map (fun t => t.pc) ≠ some State.reset.pc ∧
    (nextOf (exec .ret State.reset)).map (fun t => t.fault) ≠ some State.reset.fault ∧
    (nextOf (exec (.ldDtVx 0) (start [(0, 3)]))).map (fun t => t.dt) ≠ some State.reset.dt ∧
    (nextOf (exec (.ldStVx 0) (start [(0, 3)]))).map (fun t => t.st) ≠ some State.reset.st ∧
    (nextOf (exec (.ldINnn 1) State.reset)).map (fun t => t.i) ≠ some State.reset.i ∧
    (nextOf (exec (.call 0) State.reset)).map (fun t => (t.stack, t.sp)) ≠
      some (State.reset.stack, State.reset.sp) ∧
    (nextOf (exec .cls corner)).map (fun t => t.disp) ≠ some corner.disp ∧
    (nextOf (exec (.ldMemVx 0) { start [(0, 3)] with i := 4095 })).map (fun t => t.mem) ≠ some State.reset.mem ∧
    (nextOf (exec (.rndVxNn 0 0) (State.reset.present (some 0)))).map (fun t => t.draws) ≠
      some State.reset.draws := by decide +kernel

/-- The last byte of a dump of 16 registers at 4080 does change. -/
theorem witness_StoresStayInTheirWindow :
    (nextOf (exec (.ldMemVx 15) { start [(15, 3)] with i := 4080 })).map (fun t => t.byte 4095) ≠
      some (State.reset.byte 4095) ∧
    (nextOf (exec (.ldBVx 15) { start [(15, 3)] with i := 4093 })).map (fun t => t.byte 4095) ≠
      some (State.reset.byte 4095) := by decide +kernel

theorem witness_SoundTimerAndOutputsAreNeverRead :
    (∃ t, exec (.ldStVx 0) State.reset = .next t) ∧ (∃ t, exec .nop State.reset = .next t) ∧
    ∀ x : Reg, Instr.nop ≠ .ldStVx x := ⟨⟨_, rfl⟩, ⟨_, rfl⟩, by simp⟩

theorem witness_OnlyRandomReadsTheRandomInput :
    (∀ x nn, Instr.cls ≠ .rndVxNn x nn) ∧ ∃ t, exec .cls corner = .next t := ⟨by simp, ⟨_, rfl⟩⟩

theorem witness_StepWithRandomByte :
    (last 0xC10F).Good ∧ (last 0xC10F).pc.toNat + 1 < 4096 ∧
    decode (last 0xC10F).fetchWord = some (.rndVxNn 1 0x0F) := by decide +kernel

/-- Each row of the fault table at the boundary of its condition: the value that faults and the value beside it that
does not, with every answer a next state. -/
theorem witness_OnlyListedInstructionsFault :
    (nextOf (exec .ret State.reset)).map (fun t => t.fault.cause) = some .stackUnderflow ∧
    (nextOf (exec .ret { State.reset with sp := 1 })).map (fun t => t.fault.cause) = some .none ∧
    (nextOf (exec (.call 0) { State.reset with sp := 16 })).map (fun t => t.fault.cause) = some .stackOverflow ∧
    (nextOf (exec (.call 0) { State.reset with sp := 15 })).map (fun t => t.fault.cause) = some .none ∧
    (nextOf (exec (.ldBVx 0) (indexed 4094))).map (fun t => t.fault.cause) = some .memData ∧
    (nextOf (exec (.ldBVx 0) (indexed 4093))).map (fun t => t.fault.cause) = some .none ∧
    (nextOf (exec (.ldVxMem 1) (indexed 4095))).map (fun t => t.fault.cause) = some .memData ∧
    (nextOf (exec (.ldVxMem 1) (exclusive [] 4095))).map (fun t => t.fault.cause) = some .none ∧
    (nextOf (exec (.drw 0 0 2) (indexed 4095))).map (fun t => t.fault.cause) = some .memData ∧
    (nextOf (exec (.drw 0 0 1) (indexed 4095))).map (fun t => t.fault.cause) = some .none ∧
    (nextOf (exec (.skp 1) (start [(1, 16)]))).map (fun t => t.fault.cause) = some .keyIndex ∧
    (nextOf (exec (.sknp 1) (start [(1, 15)]))).map (fun t => t.fault.cause) = some .none ∧
    State.reset.Good := by decide +kernel

/-- The three ways a STEP of a good CORE ends in a fault. -/
theorem witness_FaultEntryWritesOnlyTheLatch :
    (nextOf (step { State.reset with pc := 4095 })).map (fun t => t.fault.kind) = some .outOfBounds ∧
    (nextOf (step (last 0x5011))).map (fun t => t.fault.kind) = some .unknownOpcode ∧
    (nextOf (step (last 0x00EE))).map (fun t => t.fault.kind) = some .outOfBounds ∧
    (last 0x00EE).Good := by decide +kernel

theorem witness_ResetRegistersAreZero : ∃ t, perform .reset corner = .next t := ⟨_, rfl⟩

/-- The largest program that fits, and one byte more; memory in canonical form. -/
theorem witness_LoadCopiesTheProgram :
    0x200 + (List.replicate 3584 (0 : Byte)).length ≤ 4096 ∧ State.reset.MemWf ∧
    4096 < 0x200 + (List.replicate 3585 (0 : Byte)).length := by
  simp only [List.length_replicate]; decide

/-- The invariant holds at reset, and at a state with memory, stack, `PC` and latch at the edges of their ranges. -/
theorem witness_StepKeepsTheInvariant :
    State.reset.Inv ∧ (∃ t, step State.reset = .next t) ∧
    ({ State.reset with
      mem := [(0x200, 0x12), (4095, 0x01)], pc := 0x10FE, stack := State.reset.stack.set 15 4096, sp := 16,
      fault := ⟨.outOfBounds, .memFetch, 0x10FE⟩ } : State).Inv :=
  ⟨by decide +kernel, ⟨_, rfl⟩, by decide +kernel⟩

/-- A reachable state that is not the reset state: a key pressed, then a tick. -/
theorem witness_ReachableStatesMeetTheInvariant :
    Reachable (timerTickCommand (keyCommand 7 true State.reset)) :=
  .command .timerTick (.command (.key 7 true) (.reset Parameters.default) rfl) rfl

theorem witness_OnlyResetClearsTheLatch :
    ¬ faulted.Good ∧ (∃ t, perform (.load []) faulted = .next t) ∧ Command.load [] ≠ .reset ∧
    (∃ t, perform .timerTick faulted = .next t) ∧ (∀ b, Command.timerTick ≠ .load b) ∧
    Command.timerTick ≠ .reset := by
  refine ⟨by decide +kernel, ⟨_, rfl⟩, by decide, ⟨_, rfl⟩, by simp, by decide⟩

/-- Every kind of command answers a next state from the reset state, which has the invariant; the LOAD is one that
fits and one that does not. -/
theorem witness_CommandsKeepTheInvariant :
    State.reset.Inv ∧ (∃ t, perform .reset State.reset = .next t) ∧
    (∃ t, perform (.load [1]) State.reset = .next t) ∧
    (∃ t, perform (.load (List.replicate 3585 1)) State.reset = .next t) ∧
    (∃ t, perform (.step 7) State.reset = .next t) ∧ (∃ t, perform .timerTick State.reset = .next t) ∧
    (∃ t, perform (.key 15 true) State.reset = .next t) :=
  ⟨by decide +kernel, ⟨_, rfl⟩, ⟨_, rfl⟩, ⟨_, rfl⟩, ⟨_, rfl⟩, ⟨_, rfl⟩, ⟨_, rfl⟩⟩

theorem witness_ParametersAreFixed :
    (∃ t, step (exclusive [] 0) = .next t) ∧ (∃ t, perform .reset (exclusive [] 0) = .next t) :=
  ⟨⟨_, rfl⟩, ⟨_, rfl⟩⟩

theorem witness_EndOfRunIsAFixedPoint : (last 0x1FFE).AtEnd 0xFFE := by decide +kernel

end Sys2Proof.Tests
end

/-! PROOFS. The parameters of R7, FONT and DUMP_LOAD_INCLUSIVE, are kept by every instruction, every STEP and every
command. -/

namespace Sys2Proof.Machine

/-! ## The operations with more than one outcome: what each can do, read for the parameters -/

theorem withData_keeps_params {n : Nat} {s t : State} {f : State → State} (h : withData n s f = .next t)
    (hf : (f s).params = s.params) : t.params = s.params := by
  obtain ⟨-, rfl⟩ | ⟨-, -, rfl⟩ := withData_next h
  · exact hf
  · rfl

theorem skipOnKey_keeps_params {x : Reg} {l : Bool} {s t : State} (h : skipOnKey x l s = .next t) :
    t.params = s.params := by
  obtain ⟨_, -, rfl⟩ | ⟨-, rfl⟩ := skipOnKey_next h
  · exact s.skipIf_params _
  · rfl

theorem execRet_keeps_params {s t : State} (h : execRet s = .next t) : t.params = s.params := by
  obtain ⟨_, _, -, -, rfl⟩ | ⟨-, rfl⟩ := execRet_next h <;> rfl

theorem execCall_keeps_params {nnn : BitVec 12} {s t : State} (h : execCall nnn s = .next t) :
    t.params = s.params := by
  obtain ⟨_, _, -, -, rfl⟩ | ⟨-, rfl⟩ := execCall_next h <;> rfl

theorem execLdVxK_keeps_params {x : Reg} {s t : State} (h : execLdVxK x s = .next t) : t.params = s.params := by
  obtain ⟨_, -, rfl⟩ | ⟨-, rfl⟩ := execLdVxK_next h <;> rfl

/-! ## Every instruction, every STEP, every command -/

/-- The instructions with more than one outcome go through what their operation can do; a skip keeps the parameters
taken or not; each of the others has one next state, an update of other fields. -/
theorem exec_keeps_params {i : Instr} {s t : State} (h : exec i s = .next t) : t.params = s.params := by
  cases i with
  | ret => exact execRet_keeps_params h
  | call nnn => exact execCall_keeps_params h
  | skp x | sknp x => exact skipOnKey_keeps_params h
  | ldVxK x => exact execLdVxK_keeps_params h
  | drw x y n => rw [exec_drw] at h; exact withData_keeps_params h rfl
  | ldBVx x => rw [exec_ldBVx] at h; exact withData_keeps_params h rfl
  | ldMemVx x => rw [exec_ldMemVx] at h; exact withData_keeps_params h rfl
  | ldVxMem x => rw [exec_ldVxMem] at h; exact withData_keeps_params h rfl
  | seVxNn x _ | sneVxNn x _ | seVxVy x _ | sneVxVy x _ => cases h; exact s.skipIf_params _
  | _ => cases h; rfl

theorem step_keeps_params {s t : State} (h : step s = .next t) : t.params = s.params := by
  obtain ⟨-, hs⟩ | ⟨-, -, hs⟩ | ⟨-, -, -, hs⟩ | ⟨-, -, i, -, hs⟩ := step_cases s <;> rw [hs] at h
  · cases h; rfl
  · cases h; rfl
  · cases h; rfl
  · exact (exec_keeps_params h).trans s.advance_params

/-- Everything a STEP(rand) command can do: the step on the state with the byte presented, which is then taken away
(R191, R198). -/
theorem stepCommand_next {rand : Byte} {s t : State} (h : stepCommand rand s = .next t) :
    ∃ u, step (s.present (some rand)) = .next u ∧ t = u.present none := by
  unfold stepCommand at h
  split at h
  · exact ⟨_, ‹_›, by cases h; rfl⟩
  · cases h
  · cases h

theorem loadCommand_keeps_params (bytes : List Byte) (s : State) : (loadCommand bytes s).params = s.params := by
  unfold loadCommand
  split <;> rfl

/-- RESET starts again from the CORE's own parameters (R193). -/
theorem perform_keeps_params {c : Command} {s t : State} (h : perform c s = .next t) : t.params = s.params := by
  cases c with
  | load bytes => cases h; exact loadCommand_keeps_params bytes s
  | step rand =>
    obtain ⟨u, hu, rfl⟩ := stepCommand_next h
    exact (step_keeps_params hu).trans (s.present_params _)
  | reset | timerTick | key _ _ => cases h; rfl

/-- Settles O60, from the rules that a STEP and a command keep the parameters. -/
theorem parametersAreFixed : Obligations.ParametersAreFixed :=
  ⟨fun _ _ => step_keeps_params, fun _ _ _ => perform_keeps_params⟩

end Sys2Proof.Machine

/-! PROOFS. The state (10_state.md): its reset values, which instruction writes which piece of it, `VF` and `PC` after
an instruction, what no instruction reads, and the invariant every STEP keeps. -/

namespace Sys2Proof.Machine

/-! ## Reset -/

@[simp] theorem reg_resetWith (p : Parameters) (r : Reg) : (State.resetWith p).reg r = 0 := by
  simp [State.reg, State.resetWith]

/-- RESET is the reset state of the CORE's own parameters but for the draw counter (R193, log entry 3). -/
theorem reg_resetCommand (s : State) (r : Reg) : (resetCommand s).reg r = 0 := reg_resetWith s.params r

theorem flat_blank (c : Fin 2048) : Display.flat Display.blank c = false := by
  simp [Display.flat, Display.cell, Display.blank]

/-- After RESET memory lists nothing, so every address reads as its reset contents (R35, R39). -/
theorem byte_resetCommand (s : State) (a : Nat) : (resetCommand s).byte a = Memory.unlisted s.params.font a := rfl

/-- Settles O49, from the registers of the reset state. -/
theorem resetRegistersAreZero : Obligations.ResetRegistersAreZero := by
  refine ⟨reg_resetWith, fun s t h r => ?_⟩
  cases h
  exact reg_resetCommand s r

/-- Settles O50, piece by piece; memory by what an unlisted address reads below the font's end and above it. -/
theorem resetCommandRestoresEverything : Obligations.ResetCommandRestoresEverything := fun s =>
  ⟨resetCommand s, rfl, rfl, reg_resetCommand s, rfl, rfl, rfl,
    fun j => by simp [resetCommand, State.resetWith], rfl, rfl, fun k => by simp [resetCommand, State.resetWith],
    flat_blank, fun _ ha => unlisted_of_lt _ ha, fun _ ha _ => unlisted_of_le _ ha, rfl, rfl⟩

theorem consistent_clear : FaultLatch.clear.Consistent := by decide

/-- Settles O54: memory lists nothing, `PC` is 0x200, the stack entries are 0 and the latch is clear. -/
theorem resetMeetsTheInvariant : Obligations.ResetMeetsTheInvariant := fun p =>
  ⟨wf_resetWith p, by simp [State.resetWith], fun j => by simp [State.resetWith], consistent_clear⟩

/-! ## Which instruction writes which piece of state -/

/-- Settles O42: an instruction with more than one outcome is read through what its operation can do; each of the
others has one next state, an update of the fields it names. -/
theorem instructionsWriteOnlyTheirState : Obligations.InstructionsWriteOnlyTheirState := by
  intro i s t h
  cases i with
  | ret => obtain ⟨_, _, -, -, rfl⟩ | ⟨-, rfl⟩ := execRet_next h <;> simp
  | call nnn => obtain ⟨_, _, -, -, rfl⟩ | ⟨-, rfl⟩ := execCall_next h <;> simp
  | skp x | sknp x => obtain ⟨_, -, rfl⟩ | ⟨-, rfl⟩ := skipOnKey_next h <;> simp
  | ldVxK x => obtain ⟨_, -, rfl⟩ | ⟨-, rfl⟩ := execLdVxK_next h <;> simp
  | drw x y n => rw [exec_drw] at h; obtain ⟨-, rfl⟩ | ⟨-, -, rfl⟩ := withData_next h <;> simp
  | ldBVx x => rw [exec_ldBVx] at h; obtain ⟨-, rfl⟩ | ⟨-, -, rfl⟩ := withData_next h <;> simp
  | ldMemVx x => rw [exec_ldMemVx] at h; obtain ⟨-, rfl⟩ | ⟨-, -, rfl⟩ := withData_next h <;> simp
  | ldVxMem x => rw [exec_ldVxMem] at h; obtain ⟨-, rfl⟩ | ⟨-, -, rfl⟩ := withData_next h <;> simp
  | _ => cases h; simp

/-- Only LD B and the dump write memory (R163, R164). -/
theorem exec_keeps_mem {i : Instr} {s t : State} (h : exec i s = .next t) (hb : ∀ x, i ≠ .ldBVx x)
    (hd : ∀ x, i ≠ .ldMemVx x) : t.mem = s.mem := by
  obtain ⟨-, -, -, -, -, -, -, -, -, -, -, -, -, hm, -⟩ := instructionsWriteOnlyTheirState i s t h
  by_contra hne
  obtain ⟨x, hx⟩ | ⟨x, hx⟩ := hm hne
  · exact hb x hx
  · exact hd x hx

/-- Only CALL writes the stack entries: RET leaves the popped one (R120, R122). -/
theorem exec_keeps_stack {i : Instr} {s t : State} (h : exec i s = .next t) (hc : ∀ nnn, i ≠ .call nnn) :
    t.stack = s.stack := by
  obtain ⟨-, -, -, -, -, -, -, -, -, -, hs, -⟩ := instructionsWriteOnlyTheirState i s t h
  by_contra hne
  obtain ⟨nnn, hn⟩ := hs hne
  exact hc nnn hn

/-! ## `VF` -/

/-- A block load never reaches a register above `V[X]`, whatever the bound (R165, D5). -/
theorem reg_loadBlock_of_lt {s : State} {x r : Reg} (h : x < r) : (s.loadBlock (s.blockCount x)).reg r = s.reg r := by
  have hc : ¬ r.val < s.blockCount x := by
    have : x.val < r.val := h
    unfold State.blockCount
    split <;> omega
  rw [reg_loadBlock, if_neg hc]

/-- Settles O40: a defining instruction writes the flag last, a destination other than `VF` leaves it, and every other
instruction keeps `V` (O42). -/
theorem vfIsWrittenOnlyByItsDefiners : Obligations.VfIsWrittenOnlyByItsDefiners := by
  intro i s t h
  obtain ⟨-, -, -, -, hv, -⟩ := instructionsWriteOnlyTheirState i s t h
  cases i with
  | addVxVy x y | subVxVy x y | shrVx x y | subnVxVy x y | shlVx x y =>
    cases h
    simp only [reg_setResultAndFlag_flag]
    exact flagByte_eq_zero_or_one _
  | drw x y n =>
    rw [exec_drw] at h
    obtain ⟨-, rfl⟩ | ⟨-, -, rfl⟩ := withData_next h
    · simp only [reg_setFlag_flag]
      exact (flagByte_eq_zero_or_one _).imp_right .inl
    · exact .inr (.inr ⟨rfl, rfl⟩)
  | ldVxNn x _ | addVxNn x _ | ldVxVy x _ | orVxVy x _ | andVxVy x _ | xorVxVy x _ | rndVxNn x _ | ldVxDt x =>
    cases h
    exact fun hx => reg_setReg_of_ne s _ hx.symm
  | ldVxK x =>
    intro hx
    obtain ⟨_, -, rfl⟩ | ⟨-, rfl⟩ := execLdVxK_next h
    · exact reg_setReg_of_ne s _ hx.symm
    · rfl
  | ldVxMem x =>
    intro hx
    rw [exec_ldVxMem] at h
    obtain ⟨-, rfl⟩ | ⟨-, -, rfl⟩ := withData_next h
    · exact reg_loadBlock_of_lt (lt_of_le_of_ne (Fin.le_last x) hx)
    · rfl
  | _ => exact reg_congr (of_not_not hv) 15

/-! ## Faults of the execute phase -/

theorem withData_fault_cases {n : Nat} {s t : State} {f : State → State} (h : withData n s f = .next t)
    (hf : (f s).fault = s.fault) :
    t.fault = s.fault ∨ ∃ c, c ≠ .none ∧ t = s.latch .outOfBounds c (s.pc - 2) := by
  obtain ⟨-, rfl⟩ | ⟨-, -, rfl⟩ := withData_next h
  · exact .inl hf
  · exact .inr ⟨.memData, nofun, rfl⟩

/-- An instruction leaves the latch as it was, or it faults: then an OutOfBounds fault with a cause is latched and
nothing else changes (R213, R215). -/
theorem exec_fault_cases {i : Instr} {s t : State} (h : exec i s = .next t) :
    t.fault = s.fault ∨ ∃ c, c ≠ .none ∧ t = s.latch .outOfBounds c (s.pc - 2) := by
  obtain ⟨-, -, -, -, -, -, hf, -⟩ := instructionsWriteOnlyTheirState i s t h
  cases i with
  | ret =>
    obtain ⟨_, _, -, -, rfl⟩ | ⟨-, rfl⟩ := execRet_next h
    · exact .inl rfl
    · exact .inr ⟨.stackUnderflow, nofun, rfl⟩
  | call nnn =>
    obtain ⟨_, _, -, -, rfl⟩ | ⟨-, rfl⟩ := execCall_next h
    · exact .inl rfl
    · exact .inr ⟨.stackOverflow, nofun, rfl⟩
  | skp x | sknp x =>
    obtain ⟨_, -, rfl⟩ | ⟨-, rfl⟩ := skipOnKey_next h
    · exact .inl (s.skipIf_fault _)
    · exact .inr ⟨.keyIndex, nofun, rfl⟩
  | drw x y n => rw [exec_drw] at h; exact withData_fault_cases h rfl
  | ldBVx x => rw [exec_ldBVx] at h; exact withData_fault_cases h rfl
  | ldMemVx x => rw [exec_ldMemVx] at h; exact withData_fault_cases h rfl
  | ldVxMem x => rw [exec_ldVxMem] at h; exact withData_fault_cases h rfl
  | _ => exact .inl (of_not_not hf)

/-! ## `PC` after a STEP -/

@[simp] theorem reg_advance (s : State) (r : Reg) : s.advance.reg r = s.reg r := rfl

/-- A skip at address a leaves a + 4 when it is taken and a + 2 when it is not (R127). -/
theorem toNat_pc_skipIf_advance {s : State} (h : s.pc.toNat + 1 < 4096) (c : Bool) :
    (s.advance.skipIf c).pc.toNat = s.pc.toNat + if c then 4 else 2 := by
  cases c <;> simp [BitVec.toNat_add] <;> omega

/-- An instruction executed at address a that faults leaves a + 2 (R26, R215). -/
theorem toNat_pc_of_exec_fault {i : Instr} {s t : State} (hs : s.Good) (ha : s.pc.toNat + 1 < 4096)
    (h : exec i s.advance = .next t) (ht : ¬ t.Good) : t.pc.toNat = s.pc.toNat + 2 := by
  obtain hf | ⟨c, -, rfl⟩ := exec_fault_cases h
  · exact absurd ((congrArg FaultLatch.kind hf).trans hs) ht
  · exact toNat_pc_advance ha

/-- Settles O41, along what a STEP can do; the instructions that name no `PC` keep a + 2 (O42). -/
theorem pcAfterEachInstruction : Obligations.PcAfterEachInstruction := by
  intro s t hs h
  obtain ⟨hk, -⟩ | ⟨-, ha, hst⟩ | ⟨-, ha, -, hst⟩ | ⟨-, ha, i, hd, hst⟩ := step_cases s
  · exact absurd hs hk
  · rw [hst] at h
    cases h
    exact ⟨fun _ => rfl, fun _ => by omega, fun _ _ => by omega⟩
  · rw [hst] at h
    cases h
    exact ⟨fun _ => by omega, fun _ _ => toNat_pc_advance ha, fun _ _ _ ht => nomatch ht⟩
  rw [hst] at h
  refine ⟨fun _ => by omega, fun _ => toNat_pc_of_exec_fault hs ha h, fun j _ hj ht => ?_⟩
  obtain rfl : i = j := Option.some.inj (hd.symm.trans hj)
  obtain ⟨-, -, -, -, -, hpc, -⟩ := instructionsWriteOnlyTheirState i s.advance t h
  cases i with
  | seVxNn x y | sneVxNn x y | seVxVy x y | sneVxVy x y =>
    cases h
    rw [toNat_pc_skipIf_advance ha]
    simp
  | skp x | sknp x =>
    intro k hk
    have hk' : (s.advance.reg x).toNat = k.val := hk
    cases (skipOnKey_of_key hk').symm.trans h
    rw [toNat_pc_skipIf_advance ha, State.advance_keys]
    cases s.keys[k] <;> rfl
  | jp nnn => cases h; exact toNat_wordOfNNN nnn
  | call nnn =>
    obtain ⟨_, _, -, -, rfl⟩ | ⟨-, rfl⟩ := execCall_next h
    · exact toNat_wordOfNNN nnn
    · exact nomatch ht
  | jpV0 nnn => cases h; exact (toNat_jumpV0 nnn (s.reg 0)).1
  | ret =>
    obtain ⟨j, _, hj, -, rfl⟩ | ⟨-, rfl⟩ := execRet_next h
    · exact ⟨j, hj, rfl⟩
    · exact nomatch ht
  | ldVxK x =>
    obtain ⟨k, hk, rfl⟩ | ⟨hk, rfl⟩ := execLdVxK_next h
    · have hdown : ¬ ∀ j : Key, s.keys[j] = false := fun hall => by
        have := (lowestKey_eq_some.1 hk).1
        simp [hall k] at this
      simp only [if_neg hdown]
      exact toNat_pc_advance ha
    · have hnone : ∀ j : Key, s.keys[j] = false := hk
      simp [hnone]
  | _ => exact (congrArg BitVec.toNat (of_not_not hpc)).trans (toNat_pc_advance ha)

/-! ## What no instruction reads -/

/-- The state with other values of the sound timer, the tone cue and the latch. -/
def State.withOutputs (s : State) (st : Byte) (cue : Bool) (f : FaultLatch) : State :=
  { s with st := st, toneCue := cue, fault := f }

/-- From `s` and from `s.withOutputs st cue f` an operation answers the same but for the outputs: the sound timer and
the tone cue end as they were, the latch as it was or as a fault wrote it. -/
def SameButOutputs (op : State → Result) (s t : State) (st : Byte) (cue : Bool) (f : FaultLatch) : Prop :=
  ∃ f', op (s.withOutputs st cue f) = .next (t.withOutputs st cue f') ∧ (f' = f ∨ f' = t.fault)

section
variable {s t : State} {st : Byte} {cue : Bool} {f : FaultLatch}

theorem withData_sameButOutputs {n : State → Nat} {g : State → State} (hn : n (s.withOutputs st cue f) = n s)
    (hg : g (s.withOutputs st cue f) = (g s).withOutputs st cue f) (h : withData (n s) s g = .next t) :
    SameButOutputs (fun s => withData (n s) s g) s t st cue f := by
  unfold SameButOutputs
  simp only [hn]
  obtain ⟨hb, rfl⟩ | ⟨h0, hb, rfl⟩ := withData_next h
  · exact ⟨f, by rw [withData_of_inBounds (s := s.withOutputs st cue f) hb, hg], .inl rfl⟩
  · exact ⟨_, withData_of_outOfBounds h0 hb, .inr rfl⟩

theorem skipIf_withOutputs (s : State) (st : Byte) (cue : Bool) (f : FaultLatch) (c : Bool) :
    (s.withOutputs st cue f).skipIf c = (s.skipIf c).withOutputs st cue f := by cases c <;> rfl

theorem skipOnKey_sameButOutputs {x : Reg} {l : Bool} (h : skipOnKey x l s = .next t) :
    SameButOutputs (skipOnKey x l) s t st cue f := by
  obtain ⟨k, hk, rfl⟩ | ⟨hk, rfl⟩ := skipOnKey_next h
  · exact ⟨f, by rw [← skipIf_withOutputs]; exact skipOnKey_of_key (s := s.withOutputs st cue f) hk, .inl rfl⟩
  · exact ⟨_, skipOnKey_of_large hk, .inr rfl⟩

theorem execRet_sameButOutputs (h : execRet s = .next t) : SameButOutputs execRet s t st cue f := by
  by_cases hs : 0 < s.sp.val
  · cases (execRet_of_pos hs).symm.trans h
    exact ⟨f, execRet_of_pos (s := s.withOutputs st cue f) hs, .inl rfl⟩
  · cases (execRet_of_zero (by omega)).symm.trans h
    exact ⟨_, execRet_of_zero (s := s.withOutputs st cue f) (Nat.eq_zero_of_not_pos hs), .inr rfl⟩

theorem execCall_sameButOutputs {nnn : BitVec 12} (h : execCall nnn s = .next t) :
    SameButOutputs (execCall nnn) s t st cue f := by
  by_cases hs : s.sp.val < 16
  · cases (execCall_of_lt hs).symm.trans h
    exact ⟨f, execCall_of_lt (s := s.withOutputs st cue f) hs, .inl rfl⟩
  · have hfull : s.sp.val = 16 := by omega
    cases (execCall_of_full hfull).symm.trans h
    exact ⟨_, execCall_of_full (s := s.withOutputs st cue f) hfull, .inr rfl⟩

theorem execLdVxK_sameButOutputs {x : Reg} (h : execLdVxK x s = .next t) :
    SameButOutputs (execLdVxK x) s t st cue f := by
  obtain ⟨k, hk, rfl⟩ | ⟨hk, rfl⟩ := execLdVxK_next h
  · exact ⟨f, execLdVxK_of_key (s := s.withOutputs st cue f) hk, .inl rfl⟩
  · exact ⟨f, execLdVxK_of_none (s := s.withOutputs st cue f) hk, .inl rfl⟩

/-- An instruction other than LD ST is blind to the outputs (R32, R36, R40). -/
theorem exec_sameButOutputs {i : Instr} (hi : ∀ x, i ≠ .ldStVx x) (h : exec i s = .next t) :
    SameButOutputs (exec i) s t st cue f := by
  cases i with
  | ldStVx x => exact absurd rfl (hi x)
  | ret => exact execRet_sameButOutputs h
  | call nnn => exact execCall_sameButOutputs h
  | skp x | sknp x => exact skipOnKey_sameButOutputs h
  | ldVxK x => exact execLdVxK_sameButOutputs h
  | drw x y n => exact withData_sameButOutputs (n := fun _ => n.toNat) rfl rfl h
  | ldBVx x => exact withData_sameButOutputs (n := fun _ => 3) rfl rfl h
  | ldMemVx x | ldVxMem x => exact withData_sameButOutputs (n := fun s => s.blockCount x) rfl rfl h
  | seVxNn x _ | sneVxNn x _ | seVxVy x _ | sneVxVy x _ =>
    cases h
    exact ⟨f, congrArg Host.Outcome.next (skipIf_withOutputs s st cue f _), .inl rfl⟩
  | _ => cases h; exact ⟨f, rfl, .inl rfl⟩

end

/-- Settles O44: LD ST writes a register to the sound timer, and every other instruction is blind to the outputs. -/
theorem soundTimerAndOutputsAreNeverRead : Obligations.SoundTimerAndOutputsAreNeverRead := by
  intro i s t st cue f h
  by_cases hi : ∃ x, i = .ldStVx x
  · obtain ⟨x, rfl⟩ := hi
    cases h
    exact ⟨_, rfl, rfl, fun hx => absurd rfl (hx x), fun _ _ => rfl, .inl rfl⟩
  · have hi' : ∀ x, i ≠ .ldStVx x := fun x hx => hi ⟨x, hx⟩
    obtain ⟨f', hu, hf⟩ := exec_sameButOutputs (st := st) (cue := cue) (f := f) hi' h
    exact ⟨_, hu, rfl, fun _ => rfl, fun x hx => absurd hx (hi' x), hf⟩

/-! ## The invariant -/

/-- The stores of LD B and of the dump end below 4097, and no other instruction writes memory. -/
theorem exec_keeps_memWf {i : Instr} {s t : State} (hm : s.MemWf) (h : exec i s = .next t) : t.MemWf := by
  have keep (hb : ∀ x, i ≠ .ldBVx x) (hd : ∀ x, i ≠ .ldMemVx x) : t.MemWf := by
    unfold State.MemWf
    rw [exec_keeps_params h, exec_keeps_mem h hb hd]
    exact hm
  cases i with
  | ldBVx x =>
    rw [exec_ldBVx] at h
    obtain ⟨hb, rfl⟩ | ⟨-, -, rfl⟩ := withData_next h
    · exact wf_storeBytes hm _ _ (.inr (show s.i.toNat + 3 ≤ 4096 by omega))
    · exact hm
  | ldMemVx x =>
    rw [exec_ldMemVx] at h
    obtain ⟨hb, rfl⟩ | ⟨-, -, rfl⟩ := withData_next h
    · refine wf_storeBytes hm _ _ ?_
      rw [block_length s _ (blockCount_le s x), show Config.memSize = 4096 from rfl]
      omega
    · exact hm
  | _ => exact keep nofun nofun

theorem pc_skipIf_cases (s : State) (c : Bool) : (s.skipIf c).pc = s.pc ∨ (s.skipIf c).pc = s.pc + 2 := by
  cases c
  · exact .inl rfl
  · exact .inr rfl

/-- A 12-bit target lies below 4096 (R121, R122). -/
theorem toNat_wordOfNNN_le (nnn : BitVec 12) : (wordOfNNN nnn).toNat ≤ 0x10FE := by
  have := nnn.isLt
  rw [toNat_wordOfNNN]
  omega

/-- Where an instruction can leave `PC`: as it found it, 2 further on for a skip, at a jump's target (at most
0x10FE), at a popped entry, or back at the instruction (R26, R28). -/
theorem exec_pc_cases {i : Instr} {s t : State} (h : exec i s = .next t) :
    t.pc = s.pc ∨ t.pc = s.pc + 2 ∨ t.pc.toNat ≤ 0x10FE ∨ (∃ j : Fin 16, t.pc = s.stack[j]) ∨ t.pc = s.pc - 2 := by
  obtain ⟨-, -, -, -, -, hpc, -⟩ := instructionsWriteOnlyTheirState i s t h
  cases i with
  | ret =>
    obtain ⟨j, _, -, -, rfl⟩ | ⟨-, rfl⟩ := execRet_next h
    · exact .inr (.inr (.inr (.inl ⟨j, rfl⟩)))
    · exact .inl rfl
  | call nnn =>
    obtain ⟨_, _, -, -, rfl⟩ | ⟨-, rfl⟩ := execCall_next h
    · exact .inr (.inr (.inl (toNat_wordOfNNN_le nnn)))
    · exact .inl rfl
  | jp nnn => cases h; exact .inr (.inr (.inl (toNat_wordOfNNN_le nnn)))
  | jpV0 nnn =>
    cases h
    obtain ⟨heq, hle⟩ := toNat_jumpV0 nnn (s.reg 0)
    exact .inr (.inr (.inl (heq.trans_le hle)))
  | seVxNn x _ | sneVxNn x _ | seVxVy x _ | sneVxVy x _ =>
    cases h
    exact (pc_skipIf_cases s _).imp_right .inl
  | skp x | sknp x =>
    obtain ⟨_, -, rfl⟩ | ⟨-, rfl⟩ := skipOnKey_next h
    · exact (pc_skipIf_cases s _).imp_right .inl
    · exact .inl rfl
  | ldVxK x =>
    obtain ⟨_, -, rfl⟩ | ⟨-, rfl⟩ := execLdVxK_next h
    · exact .inl rfl
    · exact .inr (.inr (.inr (.inr rfl)))
  | _ => exact .inl (of_not_not hpc)

/-- CALL pushes `PC`, and no other instruction writes a stack entry, so a bound on both stays one on the entries. -/
theorem exec_keeps_stack_le {i : Instr} {s t : State} {b : Nat} (hpc : s.pc.toNat ≤ b)
    (hst : ∀ j : Fin 16, s.stack[j].toNat ≤ b) (h : exec i s = .next t) (j : Fin 16) : t.stack[j].toNat ≤ b := by
  by_cases hc : ∃ nnn, i = .call nnn
  · obtain ⟨nnn, rfl⟩ := hc
    obtain ⟨k, _, -, -, rfl⟩ | ⟨-, rfl⟩ := execCall_next h
    · simp only [Fin.getElem_fin, Vector.getElem_set]
      split
      · exact hpc
      · exact hst j
    · exact hst j
  · rw [exec_keeps_stack h fun nnn hn => hc ⟨nnn, hn⟩]
    exact hst j

theorem consistent_outOfBounds {c : FaultCause} (hc : c ≠ .none) (w : Word) :
    FaultLatch.Consistent ⟨.outOfBounds, c, w⟩ := ⟨nofun, ⟨fun _ => hc, fun _ => rfl⟩, nofun⟩

theorem consistent_unknownOpcode (w : Word) : FaultLatch.Consistent ⟨.unknownOpcode, .none, w⟩ :=
  ⟨nofun, ⟨nofun, fun h => absurd rfl h⟩, nofun⟩

/-- A fault of the execute phase latches a cause; without one the latch stays as it was. -/
theorem exec_keeps_consistent {i : Instr} {s t : State} (hf : s.fault.Consistent) (h : exec i s = .next t) :
    t.fault.Consistent := by
  obtain he | ⟨c, hc, rfl⟩ := exec_fault_cases h
  · rw [he]
    exact hf
  · exact consistent_outOfBounds hc _

/-- The instruction fetched from address a finds `PC` = a + 2, at most 4096, the bound on the stack entries; no
destination of `PC` is above 0x10FE. -/
theorem exec_advance_keeps_inv {i : Instr} {s t : State} (hs : s.Inv) (ha : s.pc.toNat + 1 < 4096)
    (h : exec i s.advance = .next t) : t.Inv := by
  obtain ⟨hm, -, hst, hf⟩ := hs
  have hadv : s.advance.pc.toNat = s.pc.toNat + 2 := toNat_pc_advance ha
  refine ⟨exec_keeps_memWf (s := s.advance) hm h, ?_, exec_keeps_stack_le (s := s.advance) (by omega) hst h,
    exec_keeps_consistent (s := s.advance) hf h⟩
  obtain hp | hp | hp | ⟨j, hp⟩ | hp := exec_pc_cases h
  · rw [hp]
    omega
  · rw [hp, BitVec.toNat_add]
    simp
    omega
  · exact hp
  · rw [hp]
    exact (hst j).trans (by decide)
  · rw [hp, State.advance_pc, pc_add_sub]
    omega

/-- Settles O55, along what a STEP can do: the halted CORE stays, a fault in fetch or decode writes the latch and at
most advances `PC`, and the instruction keeps the invariant. -/
theorem stepKeepsTheInvariant : Obligations.StepKeepsTheInvariant := by
  intro s t hs h
  obtain ⟨-, hk⟩ | ⟨-, -, hk⟩ | ⟨-, ha, -, hk⟩ | ⟨-, ha, i, -, hk⟩ := step_cases s <;> rw [hk] at h
  · cases h
    exact hs
  · cases h
    obtain ⟨hm, hpc, hst, -⟩ := hs
    exact ⟨hm, hpc, hst, consistent_outOfBounds (c := .memFetch) nofun _⟩
  · cases h
    obtain ⟨hm, -, hst, -⟩ := hs
    have hadv := toNat_pc_advance ha
    exact ⟨hm, show (s.pc + 2).toNat ≤ _ by omega, hst, consistent_unknownOpcode _⟩
  · exact exec_advance_keeps_inv hs ha h

end Sys2Proof.Machine

/-! PROOFS. Memory (20_memory.md): what a fetch reads after a register dump. -/

namespace Sys2Proof.Machine

/-- A register dump in bounds stores its block and does nothing else (R164). -/
theorem exec_ldMemVx_of_inBounds {x : Reg} {s : State}
    (hb : s.blockCount x = 0 ∨ s.i.toNat + (s.blockCount x - 1) < 4096) :
    exec (.ldMemVx x) s = .next (s.storeBytes s.i.toNat (s.block (s.blockCount x))) := by
  rw [exec_ldMemVx, withData_of_inBounds hb]

/-- A stored register block holds `V[r]` at its base plus r (R21, R164). -/
theorem byte_storeBytes_block {s : State} (hm : s.MemWf) {a n : Nat} (hn : n ≤ 16) (hb : a + n ≤ 4096) {r : Reg}
    (hr : r.val < n) : (s.storeBytes a (s.block n)).byte (a + r.val) = s.reg r :=
  byte_storeBytes hm a _ ((block_length s n hn).symm ▸ hb) (block_getElem? s n r hr)

/-- Settles O32: bytes 0 and 1 of the dumped block are `V[0]` and `V[1]`, and the fetch reads them at `PC` = `I`. -/
theorem dumpedWordIsFetchedNext : Obligations.DumpedWordIsFetchedNext := by
  intro x s t hm hn hi hb h
  rw [exec_ldMemVx_of_inBounds (.inr hb)] at h
  cases h
  have stored (r : Reg) (hr : r.val < s.blockCount x) :
      (s.storeBytes s.i.toNat (s.block (s.blockCount x))).byte (s.i.toNat + r.val) = s.reg r :=
    byte_storeBytes_block hm (blockCount_le s x) (by omega) hr
  have high := stored 0 (show 0 < _ by omega)
  have low := stored 1 (show 1 < _ by omega)
  refine ⟨?_, s.storeBytes_pc _ _⟩
  rw [State.fetchWord, State.storeBytes_pc, ← hi]
  exact congrArg₂ wordOfBytes high low

end Sys2Proof.Machine

/-! PROOFS. Encoding (30_encoding.md): decode and encode agree in both directions, and the decoder is the opcode map
read as mask and match. -/

namespace Sys2Proof

open Laws.EncodingRow (nnn_row xff_row xyf_row)

/-! ## Decoding an encoded instruction -/

/-- The fields of an encoded word are the operands it was made of; the high nibble picks the group of R84, the fixed
low nibble or low byte the row in it. -/
theorem decode_encode (i : Instr) : decode (encode i) = some i := by
  cases i with
  | nop | cls | ret => rfl
  | jp nnn | call nnn | ldINnn nnn | jpV0 nnn => simp [encode, decode]
  | seVxNn x nn | sneVxNn x nn | ldVxNn x nn | addVxNn x nn | rndVxNn x nn => simp [encode, decode]
  | seVxVy x y | sneVxVy x y => simp [encode, decode]
  | drw x y n => simp [encode, decode]
  | ldVxVy x y | orVxVy x y | andVxVy x y | xorVxVy x y | addVxVy x y | subVxVy x y | shrVx x y | subnVxVy x y
  | shlVx x y => simp [encode, decode, decodeAlu]
  | skp x | sknp x => simp [encode, decode, decodeKeySkip]
  | ldVxDt x | ldVxK x | ldDtVx x | ldStVx x | addIVx x | ldFVx x | ldBVx x | ldMemVx x | ldVxMem x =>
    simp [encode, decode, decodeMisc]

/-! ## A word is the encoding of its fields, in each format (R81) -/

theorem encodeNNN_fields (op : Word) : encodeNNN (highNibble op) (fieldNNN op) = op :=
  (BitVec.extractLsb'_append_extractLsb'_eq_extractLsb' (x := op) rfl).trans BitVec.extractLsb'_eq_self

theorem toBits_fieldX_append_fieldNN (op : Word) : ((fieldX op).toBits ++ fieldNN op : BitVec 12) = fieldNNN op := by
  rw [fieldX, reg_toBits_ofBits]
  exact BitVec.extractLsb'_append_extractLsb'_eq_extractLsb' rfl

theorem toBits_fieldY_append_fieldN (op : Word) : ((fieldY op).toBits ++ fieldN op : BitVec 8) = fieldNN op := by
  rw [fieldY, reg_toBits_ofBits]
  exact BitVec.extractLsb'_append_extractLsb'_eq_extractLsb' rfl

section

variable {op : Word}

theorem encodeNNN_of_fields {o : BitVec 4} (ho : (highNibble op).toNat = o.toNat) :
    encodeNNN o (fieldNNN op) = op := by
  rw [← BitVec.eq_of_toNat_eq ho, encodeNNN_fields]

theorem encodeXNN_of_fields {o : BitVec 4} {nn : Byte} (ho : (highNibble op).toNat = o.toNat) (hn : fieldNN op = nn) :
    encodeXNN o (fieldX op) nn = op := by
  rw [encodeXNN_eq, ← hn, toBits_fieldX_append_fieldNN, encodeNNN_of_fields ho]

theorem encodeXYN_of_fields {o n : BitVec 4} (ho : (highNibble op).toNat = o.toNat) (hn : fieldN op = n) :
    encodeXYN o (fieldX op) (fieldY op) n = op := by
  rw [encodeXYN_eq, ← hn, toBits_fieldY_append_fieldN, encodeXNN_of_fields ho rfl]

/-! ## Encoding what a word decodes to, one lemma per group of R84 -/

variable {i : Instr}

theorem encode_of_decodeFixed (h : decodeFixed op = some i) : encode i = op := by
  unfold decodeFixed at h
  split_ifs at h with h0 h1 h2 <;> cases h
  · exact h0.symm
  · exact h1.symm
  · exact h2.symm

theorem encode_of_decodeAlu (ho : (highNibble op).toNat = 8) (h : decodeAlu op = some i) : encode i = op := by
  unfold decodeAlu at h
  split at h <;> cases h <;> exact encodeXYN_of_fields ho (BitVec.eq_of_toNat_eq ‹_›)

theorem encode_of_decodeKeySkip (ho : (highNibble op).toNat = 14) (h : decodeKeySkip op = some i) :
    encode i = op := by
  unfold decodeKeySkip at h
  split_ifs at h <;> cases h <;> exact encodeXNN_of_fields ho ‹_›

theorem encode_of_decodeMisc (ho : (highNibble op).toNat = 15) (h : decodeMisc op = some i) : encode i = op := by
  unfold decodeMisc at h
  split_ifs at h <;> cases h <;> exact encodeXNN_of_fields ho ‹_›

/-- The branch of the decoder fixes the high nibble, and the operands are the word's other fields, so the format puts
the word together again. -/
theorem encode_of_decode (h : decode op = some i) : encode i = op := by
  unfold decode at h
  split at h
  case h_1 => exact encode_of_decodeFixed h
  case h_2 ho | h_3 ho | h_11 ho | h_12 ho => cases h; exact encodeNNN_of_fields ho
  case h_4 ho | h_5 ho | h_7 ho | h_8 ho | h_13 ho => cases h; exact encodeXNN_of_fields ho rfl
  case h_6 ho | h_10 ho =>
    split_ifs at h with hn
    cases h
    exact encodeXYN_of_fields ho hn
  case h_9 ho => exact encode_of_decodeAlu ho h
  case h_14 ho => cases h; exact encodeXYN_of_fields ho rfl
  case h_15 ho => exact encode_of_decodeKeySkip ho h
  case h_16 ho => exact encode_of_decodeMisc ho h
  case h_17 => cases h

/-! ## The opcode map, read as mask and match (R90) -/

theorem row_mem_opcodeMap (i : Instr) : i.row ∈ opcodeMap := List.contains_iff_mem.1 (instr_wellFormed i)

/-- Every row of the opcode map is the row of an instruction. -/
theorem exists_row_of_mem_opcodeMap : ∀ r ∈ opcodeMap, ∃ i : Instr, i.row = r := by
  simp [opcodeMap, opcodeRowsLow, opcodeRowsAlu, opcodeRowsHigh]

/-- An encoded instruction has the fixed bits of its row: the mask leaves the opcode nibble, and with it the low nibble
or the low byte where the format fixes one. -/
theorem encode_matches_row (i : Instr) : encode i &&& i.row.mask = i.row.pattern := by
  cases i with dsimp only [encode, Instr.row]
  | nop | cls | ret => rfl
  | jp nnn | call nnn | ldINnn nnn | jpV0 nnn => exact nnn_row _ nnn _ (by decide)
  | seVxNn x nn | sneVxNn x nn | ldVxNn x nn | addVxNn x nn | rndVxNn x nn =>
    exact nnn_row _ (x.toBits ++ nn) _ (by decide)
  | drw x y n => exact nnn_row _ (x.toBits ++ (y.toBits ++ n)) _ (by decide)
  | seVxVy x y | sneVxVy x y | ldVxVy x y | orVxVy x y | andVxVy x y | xorVxVy x y | addVxVy x y | subVxVy x y
  | shrVx x y | subnVxVy x y | shlVx x y => exact xyf_row _ x y _ _ (by decide)
  | skp x | sknp x | ldVxDt x | ldVxK x | ldDtVx x | ldStVx x | addIVx x | ldFVx x | ldBVx x | ldMemVx x | ldVxMem x =>
    exact xff_row _ x _ _ (by decide)

/-- A field whose bits the mask keeps has the value it has in the pattern. -/
theorem field_of_masked {m p : Word} {k n : Nat} (h : op &&& m = p) (hm : m.extractLsb' k n = BitVec.allOnes n) :
    op.extractLsb' k n = p.extractLsb' k n := by
  rw [← h, BitVec.extractLsb'_and, hm, BitVec.and_allOnes]

/-- A word with the fixed bits of a row is no UNKNOWN: the high nibble they hold picks the group, and the low nibble or
low byte they hold is one the group has. -/
theorem decode_ne_none_of_matches_row (h : op &&& i.row.mask = i.row.pattern) : decode op ≠ none := by
  cases i with dsimp only [Instr.row] at h
  | nop | cls | ret =>
    have hop : op = _ := (BitVec.and_allOnes (x := op)).symm.trans h
    rw [hop]
    decide
  | jp _ | call _ | ldINnn _ | jpV0 _ | seVxNn _ _ | sneVxNn _ _ | ldVxNn _ _ | addVxNn _ _ | rndVxNn _ _ | drw _ _ _ =>
    have ho : highNibble op = _ := field_of_masked h rfl
    simp [decode, ho]
  | seVxVy _ _ | sneVxVy _ _ | ldVxVy _ _ | orVxVy _ _ | andVxVy _ _ | xorVxVy _ _ | addVxVy _ _ | subVxVy _ _
  | shrVx _ _ | subnVxVy _ _ | shlVx _ _ =>
    have ho : highNibble op = _ := field_of_masked h rfl
    have hn : fieldN op = _ := field_of_masked h rfl
    simp [decode, decodeAlu, ho, hn]
  | skp _ | sknp _ | ldVxDt _ | ldVxK _ | ldDtVx _ | ldStVx _ | addIVx _ | ldFVx _ | ldBVx _ | ldMemVx _ | ldVxMem _ =>
    have ho : highNibble op = _ := field_of_masked h rfl
    have hn : fieldNN op = _ := field_of_masked h rfl
    simp [decode, decodeKeySkip, decodeMisc, ho, hn]

theorem matches_row_of_decode (h : decode op = some i) : op &&& i.row.mask = i.row.pattern :=
  encode_of_decode h ▸ encode_matches_row i

theorem decode_eq_none_iff : decode op = none ↔ ∀ r ∈ opcodeMap, op &&& r.mask ≠ r.pattern := by
  constructor
  · intro hd r hr hm
    obtain ⟨i, rfl⟩ := exists_row_of_mem_opcodeMap r hr
    exact decode_ne_none_of_matches_row hm hd
  · intro hno
    cases hd : decode op with
    | none => rfl
    | some i => exact absurd (matches_row_of_decode hd) (hno i.row (row_mem_opcodeMap i))

end

/-! ## The obligations -/

/-- Settles O1, from the fields of an encoded word. -/
theorem encodeThenDecodeGivesTheInstruction : Obligations.EncodeThenDecodeGivesTheInstruction := decode_encode

/-- Settles O2: the branch the decoder took names every field of the word. -/
theorem decodedWordIsTheEncoding : Obligations.DecodedWordIsTheEncoding := fun _ _ => encode_of_decode

/-- Settles O3: a word that matches a row decodes, and a word that decodes is an encoding, which matches its row. -/
theorem decodeFollowsTheOpcodeMap : Obligations.DecodeFollowsTheOpcodeMap := fun _ =>
  ⟨decode_eq_none_iff, fun i h => ⟨row_mem_opcodeMap i, matches_row_of_decode h⟩⟩

/-- Settles O4, by running the decoder on each word. -/
theorem decodeOfWordsTheSpecShows : Obligations.DecodeOfWordsTheSpecShows := by
  unfold Obligations.DecodeOfWordsTheSpecShows
  decide

end Sys2Proof

/-! PROOFS. The step cycle (40_step_cycle.md): what a STEP of a CORE with no fault answers in each of its three cases,
that every instruction, STEP and command answers a next state, and NOP. -/

namespace Sys2Proof.Machine

/-! ## A STEP of a CORE with no fault, case by case -/

section
variable {s : State}

/-- The fetch at the end of memory faults with `PC` unchanged (R110). -/
theorem step_of_unfetchable (hs : s.Good) (ha : 4096 ≤ s.pc.toNat + 1) :
    step s = .next (s.latch .outOfBounds .memFetch s.pc) := by rw [step, issue_of_unfetchable hs ha]

/-- An UNKNOWN word faults after the advance (R113). -/
theorem step_of_unknown (hs : s.Good) (ha : s.pc.toNat + 1 < 4096) (hd : decode s.fetchWord = none) :
    step s = .next (s.advance.latch .unknownOpcode .none s.fetchWord) := by rw [step, issue_of_unknown hs ha hd]

/-- Any other word's instruction is executed after the advance (R111, R113). -/
theorem step_of_decoded {i : Instr} (hs : s.Good) (ha : s.pc.toNat + 1 < 4096) (hd : decode s.fetchWord = some i) :
    step s = exec i s.advance := by rw [step, issue_of_decoded hs ha hd]

end

/-- The fetch is big-endian (R27, R110). -/
theorem toNat_fetchWord (s : State) :
    s.fetchWord.toNat = 256 * (s.byte s.pc.toNat).toNat + (s.byte (s.pc.toNat + 1)).toNat :=
  toNat_wordOfBytes _ _

/-! ## Every operation answers a next state: the effect where its check passes, and fault entry where it fails -/

theorem withData_completes (n : Nat) (s : State) (f : State → State) : ∃ t, withData n s f = .next t := by
  by_cases hb : n = 0 ∨ s.i.toNat + (n - 1) < 4096
  · exact ⟨_, withData_of_inBounds hb⟩
  · exact ⟨_, withData_of_outOfBounds (by omega) (by omega)⟩

theorem skipOnKey_completes (x : Reg) (l : Bool) (s : State) : ∃ t, skipOnKey x l s = .next t := by
  by_cases hx : 15 < (s.reg x).toNat
  · exact ⟨_, skipOnKey_of_large hx⟩
  · exact ⟨_, skipOnKey_of_key (k := ⟨(s.reg x).toNat, by omega⟩) rfl⟩

theorem execRet_completes (s : State) : ∃ t, execRet s = .next t := by
  by_cases hsp : 0 < s.sp.val
  · exact ⟨_, execRet_of_pos hsp⟩
  · exact ⟨_, execRet_of_zero (by omega)⟩

theorem execCall_completes (nnn : BitVec 12) (s : State) : ∃ t, execCall nnn s = .next t := by
  by_cases hsp : s.sp.val < 16
  · exact ⟨_, execCall_of_lt hsp⟩
  · exact ⟨_, execCall_of_full (by omega)⟩

/-- Waiting for a key is a next state as well: `PC` back at the instruction (R183). -/
theorem execLdVxK_completes (x : Reg) (s : State) : ∃ t, execLdVxK x s = .next t := by
  cases hk : s.lowestKey with
  | none => exact ⟨_, execLdVxK_of_none (lowestKey_eq_none.1 hk)⟩
  | some k => exact ⟨_, execLdVxK_of_key hk⟩

/-! ## Every instruction, every STEP, every command -/

/-- The instructions with a check go through their operation; each of the others is one update. -/
theorem exec_completes (i : Instr) (s : State) : ∃ t, exec i s = .next t := by
  cases i with
  | ret => exact execRet_completes s
  | call nnn => exact execCall_completes nnn s
  | skp x | sknp x => exact skipOnKey_completes x _ s
  | ldVxK x => exact execLdVxK_completes x s
  | drw x y n => rw [exec_drw]; exact withData_completes ..
  | ldBVx x => rw [exec_ldBVx]; exact withData_completes ..
  | ldMemVx x => rw [exec_ldMemVx]; exact withData_completes ..
  | ldVxMem x => rw [exec_ldVxMem]; exact withData_completes ..
  | _ => exact ⟨_, rfl⟩

theorem step_completes (s : State) : ∃ t, step s = .next t := by
  obtain ⟨-, hs⟩ | ⟨-, -, hs⟩ | ⟨-, -, -, hs⟩ | ⟨-, -, i, -, hs⟩ := step_cases s <;> rw [hs]
  · exact ⟨_, rfl⟩
  · exact ⟨_, rfl⟩
  · exact ⟨_, rfl⟩
  · exact exec_completes i s.advance

/-- STEP(rand) answers where its step does (R191). -/
theorem stepCommand_of_step {rand : Byte} {s u : State} (h : step (s.present (some rand)) = .next u) :
    stepCommand rand s = .next (u.present none) := by rw [stepCommand, h]

theorem perform_completes (c : Command) (s : State) : ∃ t, perform c s = .next t := by
  cases c with
  | step rand =>
    obtain ⟨u, hu⟩ := step_completes (s.present (some rand))
    exact ⟨_, stepCommand_of_step hu⟩
  | reset | load _ | timerTick | key _ _ => exact ⟨_, rfl⟩

/-! ## NOP -/

theorem decode_eq_nop_iff (op : Word) : decode op = some .nop ↔ op = 0x0000 :=
  ⟨fun h => (encode_of_decode h).symm, fun h => h ▸ decode_encode .nop⟩

/-! ## The obligations -/

/-- Settles O9, from the completion of the five operations with a check. -/
theorem everyStepAndCommandCompletes : Obligations.EveryStepAndCommandCompletes :=
  ⟨exec_completes, step_completes, perform_completes⟩

/-- Settles O5: the word of the premise is the one the STEP fetches, and below 4096 the advance does not wrap. -/
theorem stepRunsTheDecodedInstruction : Obligations.StepRunsTheDecodedInstruction :=
  fun _ _ hs ha hd => ⟨step_of_decoded hs ha hd, toNat_pc_advance ha⟩

/-- Settles O6: fault entry writes the latch only, and the fetched word is big-endian. -/
theorem fetchReadsTheWordOrFaults : Obligations.FetchReadsTheWordOrFaults := fun s hs =>
  ⟨fun ha => ⟨_, step_of_unfetchable hs ha, ⟨rfl, rfl⟩, rfl, rfl, fun _ => rfl⟩, fun _ => toNat_fetchWord s⟩

/-- Settles O7, from the two cases of a STEP that fetches a word. -/
theorem unknownWordRaisesUnknownOpcode : Obligations.UnknownWordRaisesUnknownOpcode := fun _ hs ha =>
  ⟨step_of_unknown hs ha, fun _ => step_of_decoded hs ha⟩

/-- Settles O10: 0x0000 is the encoding of NOP, so a STEP over it executes NOP on the advanced state. -/
theorem nopOnlyAdvances : Obligations.NopOnlyAdvances :=
  ⟨fun _ => rfl, decode_eq_nop_iff, fun _ hs ha hw => step_of_decoded hs ha ((decode_eq_nop_iff _).2 hw)⟩

end Sys2Proof.Machine

/-! PROOFS. Control flow (41_control_flow.md): return and call at both ends of the stack, the jumps, and the skips. -/

namespace Sys2Proof.Machine

/-! ## A jump and a skip change `PC` alone -/

theorem onlyPc_withPc (s : State) (w : Word) : OnlyPc s { s with pc := w } := ⟨rfl, fun _ => rfl⟩

theorem onlyPc_skipIf (s : State) (c : Bool) : OnlyPc s (s.skipIf c) := by
  cases c with
  | false => exact onlyPc_withPc s s.pc
  | true => exact onlyPc_withPc s (s.pc + 2)

section
variable (s : State) (a b : Byte)

/-- SE: skip when the operands are equal (R123, R125). -/
theorem skipIf_beq_pc : (s.skipIf (a == b)).pc = if a = b then s.pc + 2 else s.pc := by
  simp only [State.skipIf_pc, beq_iff_eq]

/-- SNE: skip when the operands differ (R124, R126). -/
theorem skipIf_bne_pc : (s.skipIf (a != b)).pc = if a = b then s.pc else s.pc + 2 := by
  simp only [State.skipIf_pc, bne_iff_ne, ite_not]

end

/-! ## The stack -/

/-- A push writes the next free entry and no other (R30, R122). -/
theorem getElem_push (stack : Vector Word 16) {n : Nat} (hn : n < 16) (w : Word) (j : Fin 16) :
    (stack.set n w hn)[j] = if j.val = n then w else stack[j] := by
  rw [Fin.getElem_fin, Vector.getElem_set, Fin.getElem_fin]
  exact ite_congr (propext eq_comm) (fun _ => rfl) fun _ => rfl

/-! ## The obligations -/

/-- Settles O11, from the two cases of RET. -/
theorem returnPopsTheStack : Obligations.ReturnPopsTheStack := fun _ =>
  ⟨fun hsp => ⟨_, execRet_of_pos hsp, rfl, rfl, rfl, fun _ => rfl⟩,
   fun hsp => ⟨_, execRet_of_zero hsp, ⟨rfl, rfl⟩, rfl, rfl, rfl⟩⟩

/-- Settles O12: zero extension keeps the number the immediate names. -/
theorem jumpLoadsTheTarget : Obligations.JumpLoadsTheTarget := fun nnn s =>
  ⟨_, rfl, toNat_wordOfNNN nnn, onlyPc_withPc s _⟩

/-- Settles O13, from the two cases of CALL. -/
theorem callPushesThenJumps : Obligations.CallPushesThenJumps := fun nnn s =>
  ⟨fun hsp => ⟨_, execCall_of_lt hsp, rfl, toNat_wordOfNNN nnn, getElem_push s.stack hsp s.pc, rfl, fun _ => rfl⟩,
   fun hsp => ⟨_, execCall_of_full hsp, ⟨rfl, rfl⟩, rfl, rfl, rfl⟩⟩

/-- Settles O14: a skip on a register and an immediate. -/
theorem immediateSkips : Obligations.ImmediateSkips := fun x nn s =>
  ⟨⟨_, rfl, skipIf_beq_pc s (s.reg x) nn, onlyPc_skipIf s _⟩,
   ⟨_, rfl, skipIf_bne_pc s (s.reg x) nn, onlyPc_skipIf s _⟩⟩

/-- Settles O15: a skip on two registers; with X = Y the operands are equal. -/
theorem registerSkips : Obligations.RegisterSkips := by
  intro x y s
  have hse := skipIf_beq_pc s (s.reg x) (s.reg y)
  have hsne := skipIf_bne_pc s (s.reg x) (s.reg y)
  have same (h : x = y) : s.reg x = s.reg y := congrArg s.reg h
  exact ⟨⟨_, rfl, hse, onlyPc_skipIf s _, fun h => hse.trans (if_pos (same h))⟩,
    ⟨_, rfl, hsne, onlyPc_skipIf s _, fun h => hsne.trans (if_pos (same h))⟩⟩

/-- Settles O16: 0xFFF + 0xFF is far below 65536, so the 16-bit sum is exact. -/
theorem jumpV0AddsV0 : Obligations.JumpV0AddsV0 := fun nnn s => by
  obtain ⟨hsum, hle⟩ := toNat_jumpV0 nnn (s.reg 0)
  exact ⟨_, rfl, hsum, hsum.trans_le hle, onlyPc_withPc s _⟩

end Sys2Proof.Machine

/-! PROOFS. The ALU (42_alu.md): loads, arithmetic, logic, shifts and the random byte. -/

namespace Sys2Proof.Machine

/-! ## What writing a result, and a flag after it, leaves unchanged -/

section
variable (s : State) (x : Reg) (b : Byte)

theorem regsBut_setReg : RegsBut x s (s.setReg x b) := fun _ hr => reg_setReg_of_ne s b hr

theorem onlyRegs_setReg : OnlyRegs s (s.setReg x b) := ⟨rfl, s.setReg_byte x b⟩

/-- A flag instruction leaves its result in `V[X]`, unless that is `VF`, which holds the flag for every X; every other
register and piece of state is as before (R12, R140). -/
theorem setResultAndFlag_effect (f : Bool) :
    (x ≠ 15 → (s.setResultAndFlag x b f).reg x = b) ∧ (s.setResultAndFlag x b f).reg 15 = flagByte f ∧
      RegsButFlag x s (s.setResultAndFlag x b f) ∧ OnlyRegs s (s.setResultAndFlag x b f) :=
  ⟨fun hx => (reg_setResultAndFlag_of_ne_flag s x b f hx).trans (if_pos rfl), reg_setResultAndFlag_flag s x b f,
   fun _ hr hflag => (reg_setResultAndFlag_of_ne_flag s x b f hflag).trans (if_neg hr),
   rfl, s.setResultAndFlag_byte x b f⟩

end

/-! ## The results and the flags as numbers -/

section
variable (a b : Byte)

/-- The difference modulo 256, as the integer remainder, which is never negative (R148, R150). -/
theorem toNat_sub_eq_emod : ((a - b).toNat : Int) = ((a.toNat : Int) - (b.toNat : Int)) % 256 := by
  have := a.isLt
  have := b.isLt
  rw [BitVec.toNat_sub]
  omega

theorem toNat_shiftRight_one : (a >>> 1).toNat = a.toNat / 2 := by
  rw [BitVec.toNat_ushiftRight, Nat.shiftRight_eq_div_pow, pow_one]

theorem toNat_shiftLeft_one : (a <<< 1).toNat = (2 * a.toNat) % 256 := by
  rw [BitVec.toNat_shiftLeft, Nat.shiftLeft_eq, pow_one, mul_comm]

theorem flagByte_carryOut : flagByte (carryOut a b) = if a.toNat + b.toNat > 255 then 1 else 0 := by
  simp only [flagByte, carryOut, decide_eq_true_eq]

theorem flagByte_notBorrow : flagByte (notBorrow a b) = if a.toNat ≥ b.toNat then 1 else 0 := by
  simp only [flagByte, notBorrow, decide_eq_true_eq]

theorem toNat_flagByte (f : Bool) : (flagByte f).toNat = f.toNat := by cases f <;> rfl

/-- Old bit k, as the flag holds it. -/
theorem toNat_flagByte_bit (k : Nat) : (flagByte (a.getLsbD k)).toNat = a.toNat / 2 ^ k % 2 := by
  rw [toNat_flagByte, BitVec.getLsbD, Nat.toNat_testBit]

theorem toNat_flagByte_shiftedOutRight : (flagByte (shiftedOutRight a)).toNat = a.toNat % 2 :=
  (toNat_flagByte_bit a 0).trans (by rw [pow_zero, Nat.div_one])

/-- Bit 7 is the quotient by 128: a byte leaves nothing above it. -/
theorem toNat_flagByte_shiftedOutLeft : (flagByte (shiftedOutLeft a)).toNat = a.toNat / 128 := by
  have := a.isLt
  have hbit : (flagByte (shiftedOutLeft a)).toNat = a.toNat / 2 ^ 7 % 2 := toNat_flagByte_bit a 7
  omega

end

/-! ## The random byte -/

theorem rand_of_randIn {s : State} {rand : Byte} (h : s.randIn = some rand) : s.rand = rand := by
  rw [State.rand, h, Option.getD_some]

theorem rand_of_none {s : State} (h : s.randIn = none) : s.rand = Config.randByte s.draws := by
  rw [State.rand, h, Option.getD_none]

/-- RND writes `V[X]`, then the draw is consumed (R152). -/
theorem exec_rndVxNn (x : Reg) (nn : Byte) (s : State) :
    exec (.rndVxNn x nn) s = .next (s.setReg x (s.rand &&& nn)).drawn := rfl

/-- The draw counter is no register. -/
@[simp] theorem reg_drawn (s : State) (r : Reg) : s.drawn.reg r = s.reg r := reg_congr s.drawn_v r

/-- STEP(rand) of a CORE with no fault executes the fetched instruction with the byte presented (R191, R198). -/
theorem perform_step_of_decoded {i : Instr} {rand : Byte} {s u : State} (hs : s.Good) (ha : s.pc.toNat + 1 < 4096)
    (hd : decode s.fetchWord = some i) (h : exec i (s.present (some rand)).advance = .next u) :
    perform (.step rand) s = .next (u.present none) :=
  stepCommand_of_step ((step_of_decoded (s := s.present (some rand)) hs ha hd).trans h)

/-! ## The obligations -/

/-- Settles O17: one register is written. -/
theorem registerLoads : Obligations.RegisterLoads := fun x y nn s =>
  ⟨⟨_, rfl, reg_setReg_self s x nn, regsBut_setReg s x nn, onlyRegs_setReg s x nn⟩,
   ⟨_, rfl, reg_setReg_self s x (s.reg y), regsBut_setReg s x _, onlyRegs_setReg s x _⟩⟩

/-- Settles O18: one register is written, with the sum of two bytes. -/
theorem addImmediateHasNoFlag : Obligations.AddImmediateHasNoFlag := fun x nn s =>
  ⟨_, rfl, (congrArg BitVec.toNat (reg_setReg_self s x (s.reg x + nn))).trans (BitVec.toNat_add _ _),
    regsBut_setReg s x _, onlyRegs_setReg s x _⟩

/-- Settles O19: one register is written, and bit k of the result is the operation on bits k. -/
theorem bitwiseOperations : Obligations.BitwiseOperations := fun x y s =>
  ⟨⟨_, rfl, regsBut_setReg s x _, onlyRegs_setReg s x _, fun k _ => by rw [reg_setReg_self, BitVec.getLsbD_or]⟩,
   ⟨_, rfl, regsBut_setReg s x _, onlyRegs_setReg s x _, fun k _ => by rw [reg_setReg_self, BitVec.getLsbD_and]⟩,
   ⟨_, rfl, regsBut_setReg s x _, onlyRegs_setReg s x _, fun k _ => by rw [reg_setReg_self, BitVec.getLsbD_xor]⟩⟩

/-- Settles O20, from the sum and the carry. -/
theorem addSetsTheCarry : Obligations.AddSetsTheCarry := by
  intro x y s
  obtain ⟨hresult, hflag, hframe⟩ :=
    setResultAndFlag_effect s x (s.reg x + s.reg y) (carryOut (s.reg x) (s.reg y))
  refine ⟨_, rfl, fun hx => ?_, hflag.trans (flagByte_carryOut _ _), hframe⟩
  rw [hresult hx]
  exact BitVec.toNat_add _ _

/-- Settles O21, from the difference and its NOT borrow. -/
theorem subSetsNotBorrow : Obligations.SubSetsNotBorrow := by
  intro x y s
  obtain ⟨hresult, hflag, hframe⟩ :=
    setResultAndFlag_effect s x (s.reg x - s.reg y) (notBorrow (s.reg x) (s.reg y))
  refine ⟨_, rfl, fun hx => ?_, hflag.trans (flagByte_notBorrow _ _), hframe⟩
  rw [hresult hx]
  exact toNat_sub_eq_emod _ _

/-- Settles O22: the difference and the NOT borrow of O21, the operands swapped. -/
theorem subnSetsNotBorrow : Obligations.SubnSetsNotBorrow := by
  intro x y s
  obtain ⟨hresult, hflag, hframe⟩ :=
    setResultAndFlag_effect s x (s.reg y - s.reg x) (notBorrow (s.reg y) (s.reg x))
  refine ⟨_, rfl, fun hx => ?_, hflag.trans (flagByte_notBorrow _ _), hframe⟩
  rw [hresult hx]
  exact toNat_sub_eq_emod _ _

/-- Settles O23: the right shift halves, and the bit it moves out is the remainder. -/
theorem shiftRightKeepsTheBitInVf : Obligations.ShiftRightKeepsTheBitInVf := by
  intro x _ s
  obtain ⟨hresult, hflag, hframe⟩ :=
    setResultAndFlag_effect s x (s.reg x >>> 1) (shiftedOutRight (s.reg x))
  exact ⟨_, rfl, fun hx => (congrArg BitVec.toNat (hresult hx)).trans (toNat_shiftRight_one _),
    (congrArg BitVec.toNat hflag).trans (toNat_flagByte_shiftedOutRight _), hframe⟩

/-- Settles O24: the left shift doubles modulo 256, and the bit it moves out is the quotient of the byte by 128. -/
theorem shiftLeftKeepsTheBitInVf : Obligations.ShiftLeftKeepsTheBitInVf := by
  intro x _ s
  obtain ⟨hresult, hflag, hframe⟩ :=
    setResultAndFlag_effect s x (s.reg x <<< 1) (shiftedOutLeft (s.reg x))
  exact ⟨_, rfl, fun hx => (congrArg BitVec.toNat (hresult hx)).trans (toNat_shiftLeft_one _),
    (congrArg BitVec.toNat hflag).trans (toNat_flagByte_shiftedOutLeft _), hframe⟩

/-- Settles O25: the byte written is the named one or the free one, by what the command presents. -/
theorem randomByteIsMasked : Obligations.RandomByteIsMasked := by
  intro x nn s
  have hreg : (s.setReg x (s.rand &&& nn)).drawn.reg x = s.rand &&& nn := by rw [reg_drawn, reg_setReg_self]
  refine ⟨_, exec_rndVxNn x nn s, fun rand h => ?_, fun h => ?_, rfl, fun r hr => ?_, rfl, fun _ => rfl⟩
  · rw [hreg, rand_of_randIn h]
  · rw [hreg, rand_of_none h]
  · rw [reg_drawn, reg_setReg_of_ne s _ hr]

/-- Settles O46, from O25 on the advanced state with the command's byte presented. -/
theorem stepWithRandomByte : Obligations.StepWithRandomByte := by
  intro x nn rand s hs ha hd
  obtain ⟨u, hu, hrand, -, -, hregs, hrest, hbytes⟩ := randomByteIsMasked x nn (s.present (some rand)).advance
  have hpc : u.pc = s.pc + 2 := (congrArg State.pc hrest :)
  have hfault : u.fault = s.fault := (congrArg State.fault hrest :)
  exact ⟨_, perform_step_of_decoded hs ha hd hu, hrand rand rfl, hregs, hpc,
    (congrArg FaultLatch.kind hfault).trans hs, hbytes⟩

end Sys2Proof.Machine

/-! PROOFS. The index register and memory (43_index_memory.md): what is written to `I`, the decimal digits, the register
dump and load under either bound, and the window a store stays in. -/

namespace Sys2Proof.Machine

/-! ## Writes of the index register -/

theorem onlyIndex_withIndex (s : State) (w : Word) : OnlyIndex s { s with i := w } := ⟨rfl, fun _ => rfl⟩

/-- `I` plus a byte, modulo 65536 (R161). -/
theorem toNat_add_wordOfByte (w : Word) (b : Byte) : (w + wordOfByte b).toNat = (w.toNat + b.toNat) % 65536 := by
  rw [BitVec.toNat_add, toNat_wordOfByte]

/-- 5 * 255 is far below 65536, so a glyph's address is exact (R162). -/
theorem toNat_five_mul_wordOfByte (b : Byte) : (5 * wordOfByte b).toNat = 5 * b.toNat := by
  have := b.isLt
  have hfive : (5 : Word).toNat = 5 := rfl
  rw [BitVec.toNat_mul, toNat_wordOfByte, hfive]
  omega

/-! ## Data accesses: the fault, and the window of a store -/

/-- Data accesses out of bounds raise OutOfBounds(MEM_DATA) and change nothing else (R57, R215). -/
theorem withData_faults {n : Nat} {s : State} {f : State → State} (h0 : n ≠ 0) (h : 4096 ≤ s.i.toNat + (n - 1)) :
    ∃ t, withData n s f = .next t ∧ OutOfBounds .memData t ∧ OnlyFault s t :=
  ⟨_, withData_of_outOfBounds h0 h, ⟨rfl, rfl⟩, rfl, s.latch_byte _ _ _⟩

theorem mem_window_of_byte_storeBytes_ne {s : State} {base a : Nat} {bs : List Byte}
    (h : (s.storeBytes base bs).byte a ≠ s.byte a) : base ≤ a ∧ a < base + bs.length := by
  by_contra hout
  exact h (byte_storeBytes_outside s base bs (by omega))

/-- A checked store of `n` bytes at `I` changes only bytes of its window, and that ends below 4096 (R58, R166). -/
theorem mem_window_of_withData_store {n a : Nat} {s t : State} {bytes : State → List Byte}
    (hlen : (bytes s).length = n) (h : withData n s (fun s => s.storeBytes s.i.toNat (bytes s)) = .next t)
    (hne : t.byte a ≠ s.byte a) : a < 4096 ∧ s.i.toNat ≤ a ∧ a < s.i.toNat + n := by
  obtain ⟨hb, rfl⟩ | ⟨-, -, rfl⟩ := withData_next h
  · have hwindow := mem_window_of_byte_storeBytes_ne hne
    omega
  · exact absurd rfl hne

/-! ## The decimal digits -/

/-- Below 256 a number is kept by the byte it is stored in. -/
theorem toNat_ofNat_byte {n : Nat} (h : n < 256) : (BitVec.ofNat 8 n).toNat = n := by
  rw [BitVec.toNat_ofNat]
  exact Nat.mod_eq_of_lt h

/-- The three digits of a byte, stored in canonical memory, read back as numbers (R163). -/
theorem toNat_byte_storeBytes_decimalDigits {s : State} (hm : s.MemWf) {a : Nat} (ha : a + 2 < 4096) (b : Byte) :
    ((s.storeBytes a (decimalDigits b)).byte a).toNat = b.toNat / 100 ∧
      ((s.storeBytes a (decimalDigits b)).byte (a + 1)).toNat = b.toNat / 10 % 10 ∧
      ((s.storeBytes a (decimalDigits b)).byte (a + 2)).toNat = b.toNat % 10 := by
  have := b.isLt
  have stored {j : Nat} {d : Byte} (hj : (decimalDigits b)[j]? = some d) :
      (s.storeBytes a (decimalDigits b)).byte (a + j) = d :=
    byte_storeBytes hm a (decimalDigits b) (show a + 3 ≤ 4096 by omega) hj
  have hundreds := stored (j := 0) rfl
  have tens := stored (j := 1) rfl
  have ones := stored (j := 2) rfl
  rw [Nat.add_zero] at hundreds
  rw [hundreds, tens, ones]
  exact ⟨toNat_ofNat_byte (by omega), toNat_ofNat_byte (by omega), toNat_ofNat_byte (by omega)⟩

/-! ## The register dump and load of `n` registers, whatever the bound -/

theorem onlyRegs_loadBlock (s : State) (n : Nat) : OnlyRegs s (s.loadBlock n) := ⟨rfl, s.loadBlock_byte n⟩

/-- Of the parameters only the bound decides how many registers move (R7, R164). -/
theorem blockCount_of_sameBound {s t : State} (h : t.params.dumpLoadInclusive = s.params.dumpLoadInclusive) (x : Reg) :
    t.blockCount x = s.blockCount x := by rw [State.blockCount, State.blockCount, h]

/-- A register load in bounds loads its block and does nothing else (R165). -/
theorem exec_ldVxMem_of_inBounds {x : Reg} {s : State}
    (hb : s.blockCount x = 0 ∨ s.i.toNat + (s.blockCount x - 1) < 4096) :
    exec (.ldVxMem x) s = .next (s.loadBlock (s.blockCount x)) := by
  rw [exec_ldVxMem, withData_of_inBounds hb]

/-- A dump of no register writes no byte (R164, D5). -/
theorem storeBytes_block_zero (s : State) (a : Nat) : s.storeBytes a (s.block 0) = s := rfl

/-- A load of no register writes back the registers there are (R165, D5). -/
theorem loadBlock_zero (s : State) : s.loadBlock 0 = s := by
  have hv : (s.loadBlock 0).v = s.v := Vector.ext fun r hr => reg_loadBlock s 0 ⟨r, hr⟩
  calc s.loadBlock 0 = { s with v := (s.loadBlock 0).v } := rfl
    _ = s := by rw [hv]

section

variable {x : Reg} {s : State} {n : Nat} (hn : s.blockCount x = n)
include hn

theorem dump_of_inBounds (hb : n = 0 ∨ s.i.toNat + (n - 1) < 4096) :
    ∃ t, exec (.ldMemVx x) s = .next t ∧
      (s.MemWf → ∀ r : Reg, r.val < n → t.byte (s.i.toNat + r.val) = s.reg r) ∧
      SameBytesOutside s.i.toNat n s t ∧ OnlyMem s t := by
  subst hn
  have hle := blockCount_le s x
  refine ⟨_, exec_ldMemVx_of_inBounds hb, fun hm r hr => byte_storeBytes_block hm hle (by omega) hr,
    fun a ha => byte_storeBytes_outside s _ _ ?_, rfl⟩
  rwa [block_length s _ hle]

theorem load_of_inBounds (hb : n = 0 ∨ s.i.toNat + (n - 1) < 4096) :
    ∃ t, exec (.ldVxMem x) s = .next t ∧
      (∀ r : Reg, r.val < n → t.reg r = s.byte (s.i.toNat + r.val)) ∧
      (∀ r : Reg, n ≤ r.val → t.reg r = s.reg r) ∧ OnlyRegs s t := by
  subst hn
  exact ⟨_, exec_ldVxMem_of_inBounds hb, fun r hr => (reg_loadBlock s _ r).trans (if_pos hr),
    fun r hr => (reg_loadBlock s _ r).trans (if_neg (Nat.not_lt.2 hr)), onlyRegs_loadBlock s _⟩

theorem dump_of_outOfBounds (h0 : n ≠ 0) (h : 4096 ≤ s.i.toNat + (n - 1)) :
    ∃ t, exec (.ldMemVx x) s = .next t ∧ OutOfBounds .memData t ∧ OnlyFault s t := by
  rw [exec_ldMemVx, hn]
  exact withData_faults h0 h

theorem load_of_outOfBounds (h0 : n ≠ 0) (h : 4096 ≤ s.i.toNat + (n - 1)) :
    ∃ t, exec (.ldVxMem x) s = .next t ∧ OutOfBounds .memData t ∧ OnlyFault s t := by
  rw [exec_ldVxMem, hn]
  exact withData_faults h0 h

end

/-! ## The obligations -/

/-- Settles O26: one write of `I` each, read as a number. -/
theorem indexRegisterWrites : Obligations.IndexRegisterWrites := fun nnn _ s =>
  ⟨⟨_, rfl, toNat_wordOfNNN nnn, onlyIndex_withIndex s _⟩,
   ⟨_, rfl, toNat_add_wordOfByte _ _, onlyIndex_withIndex s _⟩,
   ⟨_, rfl, toNat_five_mul_wordOfByte _, onlyIndex_withIndex s _⟩⟩

/-- Settles O27, from the checked store of the three digits. -/
theorem decimalDigitsAreStored : Obligations.DecimalDigitsAreStored := by
  intro x s
  rw [exec_ldBVx]
  constructor
  · intro hb
    exact ⟨_, withData_of_inBounds (.inr hb), fun hm => toNat_byte_storeBytes_decimalDigits hm hb _,
      fun a ha => byte_storeBytes_outside s _ _ ha, rfl⟩
  · intro hb
    exact ⟨_, withData_of_outOfBounds three_ne_zero hb, ⟨rfl, rfl⟩, rfl, rfl, s.latch_byte _ _ _⟩

/-- Settles O28: the dump of X + 1 registers. -/
theorem registerDump : Obligations.RegisterDump := by
  intro x s hincl
  have hn := blockCount_of_inclusive hincl x
  refine ⟨fun hb => ?_, dump_of_outOfBounds hn x.val.succ_ne_zero⟩
  obtain ⟨t, ht, hbytes, hframe⟩ := dump_of_inBounds hn (.inr hb)
  exact ⟨t, ht, fun hm r hr => hbytes hm r (Nat.lt_succ_of_le hr), hframe⟩

/-- Settles O29: the load of X + 1 registers. -/
theorem registerLoad : Obligations.RegisterLoad := by
  intro x s hincl
  have hn := blockCount_of_inclusive hincl x
  refine ⟨fun hb => ?_, load_of_outOfBounds hn x.val.succ_ne_zero⟩
  obtain ⟨t, ht, hloaded, hkept⟩ := load_of_inBounds hn (.inr hb)
  exact ⟨t, ht, fun r hr => hloaded r (Nat.lt_succ_of_le hr), hkept⟩

/-- Settles O30: the dump and the load of X registers; of none they are the identity. -/
theorem blockMovesUnderTheExclusiveBound : Obligations.BlockMovesUnderTheExclusiveBound := by
  intro x s hexcl
  have hn := blockCount_of_exclusive hexcl x
  have hzero : s.blockCount 0 = 0 := blockCount_of_exclusive hexcl 0
  refine ⟨⟨?_, ?_⟩, fun hb => dump_of_inBounds hn (by omega), fun hb => load_of_inBounds hn (by omega),
    fun h0 hb => ⟨dump_of_outOfBounds hn h0 (by omega), load_of_outOfBounds hn h0 (by omega)⟩⟩
  · rw [exec_ldMemVx_of_inBounds (.inl hzero), hzero, storeBytes_block_zero]
  · rw [exec_ldVxMem_of_inBounds (.inl hzero), hzero, loadBlock_zero]

/-- Settles O31: the second machine moves as many registers, and register r is loaded from the byte it was stored to. -/
theorem dumpThenLoadRestoresRegisters : Obligations.DumpThenLoadRestoresRegisters := by
  intro x s s' t hm hb h hbytes hi hbound
  obtain ⟨_, ht, hstored, -, hmem⟩ := dump_of_inBounds rfl hb
  cases ht.symm.trans h
  have hi' : s'.i = s.i := hi.trans (congrArg State.i hmem :)
  have hcount : s'.blockCount x = s.blockCount x :=
    blockCount_of_sameBound (hbound.trans (congrArg (·.params.dumpLoadInclusive) hmem :)) x
  rw [← hi'] at hb hstored
  obtain ⟨u, hu, hloaded, -⟩ := load_of_inBounds hcount hb
  refine ⟨u, hu, fun r hr => ?_⟩
  calc u.reg r = s'.byte (s'.i.toNat + r.val) := hloaded r hr
    _ = t.byte (s'.i.toNat + r.val) := hbytes _
    _ = s.reg r := hstored hm r hr

/-- Settles O43: LD B stores three bytes and the dump one for each register it moves, and no other instruction writes
memory. -/
theorem storesStayInTheirWindow : Obligations.StoresStayInTheirWindow := by
  intro i s t a h hne
  cases i with
  | ldBVx x =>
    rw [exec_ldBVx] at h
    obtain ⟨hmem, hlow, hhigh⟩ := mem_window_of_withData_store (bytes := fun s => decimalDigits (s.reg x)) rfl h hne
    exact ⟨hmem, hlow, .inl ⟨x, rfl, hhigh⟩⟩
  | ldMemVx x =>
    rw [exec_ldMemVx] at h
    obtain ⟨hmem, hlow, hhigh⟩ := mem_window_of_withData_store (bytes := fun s => s.block (s.blockCount x))
      (block_length s _ (blockCount_le s x)) h hne
    exact ⟨hmem, hlow, .inr ⟨x, rfl, hhigh⟩⟩
  | _ => exact absurd (byte_congr (exec_keeps_mem h nofun nofun) (exec_keeps_params h) a) hne

end Sys2Proof.Machine

/-! PROOFS. The display (44_display.md): CLS, what a DRW in bounds leaves on the display, in `VF` and elsewhere, and two
identical draws in a row. -/

namespace Sys2Proof.Machine

/-! ## A DRW in bounds -/

/-- A set bit of the sprite that `DRW Vx, Vy, N` draws from this state falls on the cell. -/
abbrev State.DrwCovers (s : State) (x y : Reg) (n : BitVec 4) : Fin 64 → Fin 32 → Prop :=
  SpriteCovers s.spriteRow (s.reg x).toNat (s.reg y).toNat n.toNat

/-- The state after a DRW in bounds: `exec_drw_of_inBounds`. -/
def State.afterDrw (s : State) (x y : Reg) (n : BitVec 4) : State :=
  { s with disp := (s.canvasOf x y n).disp }.setFlag (s.canvasOf x y n).hit

section

variable (s : State) (x y : Reg) (n : BitVec 4)

theorem exec_drw_of_inBounds {s : State} {n : BitVec 4} (hb : n = 0 ∨ s.i.toNat + (n.toNat - 1) < 4096) :
    exec (.drw x y n) s = .next (s.afterDrw x y n) :=
  (exec_drw x y n s).trans (withData_of_inBounds (hb.imp_left (congrArg BitVec.toNat)))

theorem exec_drw_of_outOfBounds {s : State} {n : BitVec 4} (h0 : n ≠ 0) (h : 4096 ≤ s.i.toNat + (n.toNat - 1)) :
    exec (.drw x y n) s = .next (s.latch .outOfBounds .memData (s.pc - 2)) :=
  (exec_drw x y n s).trans (withData_of_outOfBounds (fun hn => h0 (BitVec.eq_of_toNat_eq hn)) h)

@[simp] theorem afterDrw_i : (s.afterDrw x y n).i = s.i := rfl
@[simp] theorem afterDrw_spriteRow : (s.afterDrw x y n).spriteRow = s.spriteRow := rfl

/-- A covered cell is inverted. -/
theorem cell_afterDrw_of_covered {cx : Fin 64} {cy : Fin 32} (h : s.DrwCovers x y n cx cy) :
    Display.cell (s.afterDrw x y n).disp cx cy = !Display.cell s.disp cx cy :=
  (canvasOf_inverts s x y n).on cx cy h

/-- Any other cell is as before. -/
theorem cell_afterDrw_of_not_covered {cx : Fin 64} {cy : Fin 32} (h : ¬ s.DrwCovers x y n cx cy) :
    Display.cell (s.afterDrw x y n).disp cx cy = Display.cell s.disp cx cy :=
  (canvasOf_inverts s x y n).off cx cy h

/-- The collision: a covered cell was on. -/
theorem canvasOf_hit_iff :
    (s.canvasOf x y n).hit = true ↔ ∃ cx cy, s.DrwCovers x y n cx cy ∧ Display.cell s.disp cx cy = true := by
  simpa using (canvasOf_inverts s x y n).hit

theorem flagByte_eq_one_iff (f : Bool) : flagByte f = 1 ↔ f = true := by cases f <;> decide

theorem flagByte_eq_zero_iff (f : Bool) : flagByte f = 0 ↔ ¬ f = true := by cases f <;> decide

theorem flag_afterDrw : (s.afterDrw x y n).reg 15 = flagByte (s.canvasOf x y n).hit := reg_setFlag_flag _ _

theorem flag_afterDrw_eq_one_iff :
    (s.afterDrw x y n).reg 15 = 1 ↔ ∃ cx cy, s.DrwCovers x y n cx cy ∧ Display.cell s.disp cx cy = true := by
  rw [flag_afterDrw, flagByte_eq_one_iff, canvasOf_hit_iff]

theorem flag_afterDrw_eq_zero_iff :
    (s.afterDrw x y n).reg 15 = 0 ↔ ¬ ∃ cx cy, s.DrwCovers x y n cx cy ∧ Display.cell s.disp cx cy = true := by
  rw [flag_afterDrw, flagByte_eq_zero_iff, canvasOf_hit_iff]

theorem regsBut_afterDrw : RegsBut 15 s (s.afterDrw x y n) := fun _ hr => reg_setFlag_of_ne _ _ hr

theorem sameBytes_afterDrw : SameBytes s (s.afterDrw x y n) := fun _ => rfl

/-! ## Two identical draws -/

/-- The first draw keeps `I`, so the second is in bounds too. -/
theorem exec_drw_afterDrw_of_inBounds {s : State} {n : BitVec 4} (hb : n = 0 ∨ s.i.toNat + (n.toNat - 1) < 4096) :
    exec (.drw x y n) (s.afterDrw x y n) = .next ((s.afterDrw x y n).afterDrw x y n) :=
  exec_drw_of_inBounds x y (by rwa [afterDrw_i])

/-- The first draw leaves its sprite where it is, unless a coordinate is read from `VF`, which it writes. -/
theorem drwCovers_afterDrw (hx : x ≠ 15) (hy : y ≠ 15) :
    (s.afterDrw x y n).DrwCovers x y n = s.DrwCovers x y n := by
  rw [State.DrwCovers, afterDrw_spriteRow, regsBut_afterDrw s x y n x hx, regsBut_afterDrw s x y n y hy]

/-- A covered cell is inverted twice, and any other never. -/
theorem disp_afterDrw_afterDrw (hx : x ≠ 15) (hy : y ≠ 15) :
    ((s.afterDrw x y n).afterDrw x y n).disp = s.disp := by
  have hcov := drwCovers_afterDrw s x y n hx hy
  refine display_ext fun cx cy => ?_
  by_cases h : s.DrwCovers x y n cx cy
  · rw [cell_afterDrw_of_covered _ x y n (hcov ▸ h), cell_afterDrw_of_covered s x y n h, Bool.not_not]
  · rw [cell_afterDrw_of_not_covered _ x y n (hcov ▸ h), cell_afterDrw_of_not_covered s x y n h]

/-- The first draw turned on exactly the covered cells that were off (C2). -/
theorem flag_afterDrw_afterDrw_eq_one_iff (hx : x ≠ 15) (hy : y ≠ 15) :
    ((s.afterDrw x y n).afterDrw x y n).reg 15 = 1 ↔
      ∃ cx cy, s.DrwCovers x y n cx cy ∧ Display.cell s.disp cx cy = false := by
  rw [flag_afterDrw_eq_one_iff, drwCovers_afterDrw s x y n hx hy]
  refine exists₂_congr fun cx cy => and_congr_right fun h => ?_
  rw [cell_afterDrw_of_covered s x y n h, Bool.not_eq_true']

end

/-! ## The obligations -/

/-- Settles O33: CLS writes the blank display, and nothing else. -/
theorem clearScreen : Obligations.ClearScreen := fun _ => ⟨_, rfl, flat_blank, rfl, fun _ => rfl⟩

/-- Settles O34, from what a DRW in bounds leaves, and the fault out of bounds. -/
theorem drawXorsTheSprite : Obligations.DrawXorsTheSprite := by
  intro x y n s
  constructor
  · intro hb
    exact ⟨_, exec_drw_of_inBounds x y hb, fun _ _ => cell_afterDrw_of_covered s x y n,
      fun _ _ => cell_afterDrw_of_not_covered s x y n, (flag_afterDrw_eq_one_iff s x y n).2,
      (flag_afterDrw_eq_zero_iff s x y n).2, regsBut_afterDrw s x y n, rfl, sameBytes_afterDrw s x y n,
      fun hx hy => ⟨_, exec_drw_afterDrw_of_inBounds x y hb, disp_afterDrw_afterDrw s x y n hx hy⟩⟩
  · intro h0 hb
    exact ⟨_, exec_drw_of_outOfBounds x y h0 hb, ⟨rfl, rfl⟩, rfl, rfl, rfl, s.latch_byte _ _ _⟩

/-- Settles O35: the covered cells the second draw finds on are those the first found off. -/
theorem secondDrawFlag : Obligations.SecondDrawFlag := by
  intro x y n s t u hx hy hb ht hu
  cases (exec_drw_of_inBounds x y hb).symm.trans ht
  cases (exec_drw_afterDrw_of_inBounds x y hb).symm.trans hu
  exact flag_afterDrw_afterDrw_eq_one_iff s x y n hx hy

end Sys2Proof.Machine

/-! PROOFS. Keys and timers (45_keys_timers.md): the key skips, the wait for a key and the STEP it stalls, and the timer
copies. -/

namespace Sys2Proof.Machine

/-! ## Keys -/

section
variable (s : State)

/-- Fault entry writes the latch alone (R215). -/
theorem onlyFault_latch (kind : FaultKind) (cause : FaultCause) (info : Word) :
    OnlyFault s (s.latch kind cause info) := ⟨rfl, s.latch_byte kind cause info⟩

/-- SKP and SKNP on a key level: skip when the key is at the level the instruction asks for (R181, R182). -/
theorem skipOnKey_effect {x : Reg} {k : Key} (l : Bool) (h : (s.reg x).toNat = k.val) :
    ∃ t, skipOnKey x l s = .next t ∧ t.pc = (if s.keys[k] = l then s.pc + 2 else s.pc) ∧ OnlyPc s t :=
  ⟨_, skipOnKey_of_key h, by simp only [State.skipIf_pc, beq_iff_eq], onlyPc_skipIf s _⟩

/-- A key index above 15 (D12). -/
theorem skipOnKey_faults {x : Reg} (l : Bool) (h : 15 < (s.reg x).toNat) :
    ∃ t, skipOnKey x l s = .next t ∧ OutOfBounds .keyIndex t ∧ OnlyFault s t :=
  ⟨_, skipOnKey_of_large h, ⟨rfl, rfl⟩, onlyFault_latch s _ _ _⟩

/-- The rewind of R183 undoes the advance of R111: neither touches anything but `PC`. -/
theorem rewind_advance : { s.advance with pc := s.advance.pc - 2 } = s := by
  rw [State.advance_pc, pc_add_sub]
  rfl

end

/-- A key number fits a byte. -/
theorem toNat_ofNat_key (k : Key) : (BitVec.ofNat 8 k.val).toNat = k.val :=
  toNat_ofNat_byte (k.isLt.trans (by decide))

/-! ## The obligations -/

/-- Settles O38: the STEP advances `PC` by 2 and the wait rewinds it by 2. -/
theorem waitStallsTheStep : Obligations.WaitStallsTheStep := fun x s hs ha hd hk =>
  calc step s
    _ = exec (.ldVxK x) s.advance := step_of_decoded hs ha hd
    _ = .next { s.advance with pc := s.advance.pc - 2 } := execLdVxK_of_none hk
    _ = .next s := congrArg _ (rewind_advance s)

/-- Settles O36: SKP asks for level 1 and SKNP for level 0; either faults above 15. -/
theorem keySkips : Obligations.KeySkips := by
  intro x s
  constructor
  · intro k hk
    obtain ⟨t, ht, hpc, honly⟩ := skipOnKey_effect s false hk
    refine ⟨skipOnKey_effect s true hk, t, ht, ?_, honly⟩
    rw [hpc]
    cases s.keys[k] <;> rfl
  · intro hx
    exact ⟨skipOnKey_faults s true hx, skipOnKey_faults s false hx⟩

/-- Settles O37: the key the wait takes is the lowest that is down. -/
theorem waitForKey : Obligations.WaitForKey := by
  intro x s
  constructor
  · intro hnone
    exact ⟨_, execLdVxK_of_none hnone, rfl, onlyPc_withPc s _⟩
  · intro k hk hlow
    have hreg := (congrArg BitVec.toNat (reg_setReg_self s x (BitVec.ofNat 8 k.val))).trans (toNat_ofNat_key k)
    exact ⟨_, execLdVxK_of_key (lowestKey_eq_some.2 ⟨hk, hlow⟩), hreg, regsBut_setReg s x _, onlyRegs_setReg s x _⟩

/-- Settles O39: one register or one timer is written. -/
theorem timerCopies : Obligations.TimerCopies := fun x s =>
  ⟨⟨_, rfl, reg_setReg_self s x s.dt, regsBut_setReg s x _, onlyRegs_setReg s x _⟩,
   ⟨_, rfl, rfl, rfl, fun _ => rfl⟩,
   ⟨_, rfl, rfl, rfl, fun _ => rfl⟩⟩

end Sys2Proof.Machine

/-! PROOFS. The host's commands (48_host_operations.md): LOAD, TIMER_TICK and KEY, the STEP of a halted CORE, the random
input, and the invariant over every run of commands. -/

namespace Sys2Proof.Machine

/-! ## LOAD, its two cases -/

section
variable {bytes : List Byte}

theorem loadCommand_of_fits (h : 0x200 + bytes.length ≤ 4096) (s : State) :
    loadCommand bytes s = s.storeBytes Config.loadAddr bytes := if_neg (Nat.not_lt.2 h)

theorem loadCommand_of_overflow (h : 4096 < 0x200 + bytes.length) (s : State) :
    loadCommand bytes s = s.latch .loadOverflow .none 0 := if_pos h

end

/-! ## The invariant over every command -/

theorem consistent_loadOverflow : FaultLatch.Consistent ⟨.loadOverflow, .none, 0⟩ := by decide

/-- A fitting LOAD stores below 4096 alone, and an overflowing one writes the latch alone (R192). -/
theorem loadCommand_keeps_inv (bytes : List Byte) {s : State} (hs : s.Inv) : (loadCommand bytes s).Inv := by
  obtain ⟨hm, hpc, hst, hf⟩ := hs
  by_cases hb : 0x200 + bytes.length ≤ 4096
  · rw [loadCommand_of_fits hb]
    exact ⟨wf_storeBytes hm _ _ (.inr hb), hpc, hst, hf⟩
  · rw [loadCommand_of_overflow (Nat.not_le.1 hb)]
    exact ⟨hm, hpc, hst, consistent_loadOverflow⟩

/-- Settles O59, command by command: RESET starts from the reset state (O54), STEP keeps the invariant whatever byte is
presented (O55), and TIMER_TICK and KEY write nothing that it speaks of. -/
theorem commandsKeepTheInvariant : Obligations.CommandsKeepTheInvariant := by
  intro c s t hs h
  cases c with
  | reset => cases h; exact resetMeetsTheInvariant s.params
  | load bytes => cases h; exact loadCommand_keeps_inv bytes hs
  | step rand =>
    obtain ⟨u, hu, rfl⟩ := stepCommand_next h
    exact stepKeepsTheInvariant (s.present (some rand)) u hs hu
  | timerTick | key _ _ => cases h; exact hs

/-- Settles O56, by induction on the commands of the run: reset has the invariant (O54) and a command keeps it (O59). -/
theorem reachableStatesMeetTheInvariant : Obligations.ReachableStatesMeetTheInvariant := by
  intro s hs
  induction hs with
  | reset p => exact resetMeetsTheInvariant p
  | command c _ h ih => exact commandsKeepTheInvariant c _ _ ih h

/-! ## The random input -/

section
variable {s t : State} {rand : Option Byte}

theorem withData_present {n : Nat} {g : State → State} (hg : g (s.present rand) = (g s).present rand)
    (h : withData n s g = .next t) : withData n (s.present rand) g = .next (t.present rand) := by
  obtain ⟨hb, rfl⟩ | ⟨h0, hb, rfl⟩ := withData_next h
  · rw [← hg]
    exact withData_of_inBounds (s := s.present rand) hb
  · exact withData_of_outOfBounds (s := s.present rand) h0 hb

theorem skipIf_present (s : State) (rand : Option Byte) (c : Bool) :
    (s.present rand).skipIf c = (s.skipIf c).present rand := by cases c <;> rfl

theorem skipOnKey_present {x : Reg} {l : Bool} (h : skipOnKey x l s = .next t) :
    skipOnKey x l (s.present rand) = .next (t.present rand) := by
  obtain ⟨k, hk, rfl⟩ | ⟨hk, rfl⟩ := skipOnKey_next h
  · rw [← skipIf_present]
    exact skipOnKey_of_key (s := s.present rand) hk
  · exact skipOnKey_of_large (s := s.present rand) hk

theorem execRet_present (h : execRet s = .next t) : execRet (s.present rand) = .next (t.present rand) := by
  by_cases hs : 0 < s.sp.val
  · cases (execRet_of_pos hs).symm.trans h
    exact execRet_of_pos (s := s.present rand) hs
  · cases (execRet_of_zero (by omega)).symm.trans h
    exact execRet_of_zero (s := s.present rand) (Nat.eq_zero_of_not_pos hs)

theorem execCall_present {nnn : BitVec 12} (h : execCall nnn s = .next t) :
    execCall nnn (s.present rand) = .next (t.present rand) := by
  by_cases hs : s.sp.val < 16
  · cases (execCall_of_lt hs).symm.trans h
    exact execCall_of_lt (s := s.present rand) hs
  · have hfull : s.sp.val = 16 := by omega
    cases (execCall_of_full hfull).symm.trans h
    exact execCall_of_full (s := s.present rand) hfull

theorem execLdVxK_present {x : Reg} (h : execLdVxK x s = .next t) :
    execLdVxK x (s.present rand) = .next (t.present rand) := by
  obtain ⟨k, hk, rfl⟩ | ⟨hk, rfl⟩ := execLdVxK_next h
  · exact execLdVxK_of_key (s := s.present rand) hk
  · exact execLdVxK_of_none (s := s.present rand) hk

end

/-- Settles O45: an instruction with more than one outcome takes the same one, since its check does not see the random
input; a skip does not see it taken or not; each of the others is one update of fields that do not hold it. -/
theorem onlyRandomReadsTheRandomInput : Obligations.OnlyRandomReadsTheRandomInput := by
  intro i s t rand hi h
  cases i with
  | rndVxNn x nn => exact absurd rfl (hi x nn)
  | ret => exact execRet_present h
  | call nnn => exact execCall_present h
  | skp x | sknp x => exact skipOnKey_present h
  | ldVxK x => exact execLdVxK_present h
  | drw x y n => rw [exec_drw] at h ⊢; exact withData_present rfl h
  | ldBVx x => rw [exec_ldBVx] at h ⊢; exact withData_present rfl h
  | ldMemVx x => rw [exec_ldMemVx] at h ⊢; exact withData_present rfl h
  | ldVxMem x => rw [exec_ldVxMem] at h ⊢; exact withData_present rfl h
  | seVxNn x _ | sneVxNn x _ | seVxVy x _ | sneVxVy x _ =>
    cases h
    exact congrArg Host.Outcome.next (skipIf_present s rand _)
  | _ => cases h; rfl

/-! ## The STEP of a halted CORE -/

theorem step_of_halted {s : State} (h : ¬ s.Good) : step s = .next s := by rw [step, issue_of_halted h]

/-- Presenting what is presented already changes nothing. -/
theorem present_of_randIn {s : State} {rand : Option Byte} (h : s.randIn = rand) : s.present rand = s := by
  subst h
  rfl

/-- Settles O8: the STEP ends where it begins, and the byte presented for it is taken away again. -/
theorem haltedCoreIgnoresSteps : Obligations.HaltedCoreIgnoresSteps := by
  intro s hs
  refine ⟨step_of_halted hs, fun hrand rand => ?_⟩
  calc perform (.step rand) s
    _ = .next ((s.present (some rand)).present none) := stepCommand_of_step (step_of_halted hs)
    _ = .next s := congrArg Host.Outcome.next (present_of_randIn hrand)

/-! ## The timers -/

/-- A timer floored at 0 is a number lowered by one. -/
theorem toNat_tickDown (b : Byte) : (tickDown b).toNat = b.toNat - 1 := by
  unfold tickDown
  split
  · subst_vars
    rfl
  · bv_omega

/-- After n ticks a timer that every TIMER_TICK lowers is lowered by n: the number it holds is carried to its
predecessor n times. -/
theorem toNat_iterate_timerTick {timer : State → Byte}
    (h : ∀ s, timer (timerTickCommand s) = tickDown (timer s)) (n : Nat) (s : State) :
    (timer (timerTickCommand^[n] s)).toNat = (timer s).toNat - n := by
  have hpred : Function.Semiconj (fun s => (timer s).toNat) timerTickCommand Nat.pred := fun s => by
    simp only [h, toNat_tickDown, Nat.pred_eq_sub_one]
  rw [← Nat.pred_iterate]
  exact hpred.iterate_right n s

/-! ## The obligations over one command -/

/-- Settles O51, from the two cases of LOAD. -/
theorem loadCopiesTheProgram : Obligations.LoadCopiesTheProgram := fun _ s =>
  ⟨fun hb => ⟨_, congrArg Host.Outcome.next (loadCommand_of_fits hb s),
     fun hm _ _ hj => byte_storeBytes hm _ _ hb hj, fun _ ha => byte_storeBytes_outside s _ _ ha, rfl⟩,
   fun hb => ⟨_, congrArg Host.Outcome.next (loadCommand_of_overflow hb s), rfl, onlyFault_latch s _ _ _⟩⟩

/-- Settles O52: both timers tick down, and the cue looks at `ST` before it does. -/
theorem timerTickCountsDown : Obligations.TimerTickCountsDown := by
  refine ⟨fun s => ⟨_, rfl, toNat_tickDown s.dt, toNat_tickDown s.st, ?_, rfl, fun _ => rfl⟩, fun n s =>
    ⟨toNat_iterate_timerTick (timer := State.dt) (fun _ => rfl) n s,
     toNat_iterate_timerTick (timer := State.st) (fun _ => rfl) n s⟩⟩
  calc (s.st == 1) = true
    _ ↔ s.st = 1 := beq_iff_eq
    _ ↔ s.st.toNat = 1 := BitVec.toNat_inj.symm

/-- Settles O53: one entry of the key levels is written. -/
theorem keyCommandSetsOneLevel : Obligations.KeyCommandSetsOneLevel := by
  intro k pressed s
  refine ⟨_, rfl, fun j => ?_, rfl, fun _ => rfl⟩
  simp only [keyCommand, Fin.getElem_fin, Vector.getElem_set, Fin.ext_iff, eq_comm]

end Sys2Proof.Machine

/-! PROOFS. Exceptions and the end of a run (60_exceptions.md, 70_reset_and_hazards.md): which instruction faults and
when, what fault entry writes, what clears the latch, and the jump to itself. -/

namespace Sys2Proof.Machine

/-! ## Fault entry, or the latch as it was -/

section
variable {c c' : Prop} {cause : FaultCause} {s t : State}

/-- Fault entry where the condition holds (R214). -/
theorem faultsExactlyWhen_latch (hc : c) (w : Word) : FaultsExactlyWhen c cause s (s.latch .outOfBounds cause w) :=
  ⟨fun _ => ⟨rfl, rfl⟩, absurd hc, fun _ => ⟨fun _ => hc, fun _ => nofun⟩⟩

theorem faultsExactlyWhen_of_sameLatch (hc : ¬ c) (hf : t.fault = s.fault) : FaultsExactlyWhen c cause s t :=
  ⟨fun h => absurd h hc, fun _ => hf, fun hs =>
    ⟨fun ht => absurd ((congrArg FaultLatch.kind hf).trans hs) ht, fun h => absurd h hc⟩⟩

theorem FaultsExactlyWhen.of_iff (h : FaultsExactlyWhen c cause s t) (hc : c ↔ c') :
    FaultsExactlyWhen c' cause s t := propext hc ▸ h

theorem FaultsExactlyWhen.sameLatch_or_outOfBounds (h : FaultsExactlyWhen c cause s t) :
    t.fault = s.fault ∨ OutOfBounds cause t := by
  obtain ⟨hfault, hsame, -⟩ := h
  by_cases hc : c
  · exact .inr (hfault hc)
  · exact .inl (hsame hc)

/-! ## When each operation with a check faults (R213) -/

theorem execRet_faultsExactlyWhen (h : execRet s = .next t) :
    FaultsExactlyWhen (s.sp.val = 0) .stackUnderflow s t := by
  obtain ⟨_, _, hsp, -, rfl⟩ | ⟨hsp, rfl⟩ := execRet_next h
  · exact faultsExactlyWhen_of_sameLatch (by omega) rfl
  · exact faultsExactlyWhen_latch hsp _

theorem execCall_faultsExactlyWhen {nnn : BitVec 12} (h : execCall nnn s = .next t) :
    FaultsExactlyWhen (s.sp.val = 16) .stackOverflow s t := by
  obtain ⟨_, _, hsp, -, rfl⟩ | ⟨hsp, rfl⟩ := execCall_next h
  · exact faultsExactlyWhen_of_sameLatch (by omega) rfl
  · exact faultsExactlyWhen_latch hsp _

theorem skipOnKey_faultsExactlyWhen {x : Reg} {l : Bool} (h : skipOnKey x l s = .next t) :
    FaultsExactlyWhen (15 < (s.reg x).toNat) .keyIndex s t := by
  obtain ⟨k, hk, rfl⟩ | ⟨hx, rfl⟩ := skipOnKey_next h
  · exact faultsExactlyWhen_of_sameLatch (by omega) (s.skipIf_fault _)
  · exact faultsExactlyWhen_latch hx _

theorem withData_faultsExactlyWhen {n : Nat} {f : State → State} (h : withData n s f = .next t)
    (hf : (f s).fault = s.fault) :
    FaultsExactlyWhen (n ≠ 0 ∧ 4096 ≤ s.i.toNat + (n - 1)) .memData s t := by
  obtain ⟨hb, rfl⟩ | ⟨h0, hb, rfl⟩ := withData_next h
  · exact faultsExactlyWhen_of_sameLatch (by omega) hf
  · exact faultsExactlyWhen_latch ⟨h0, hb⟩ _

end

/-- Settles O47: an instruction with a check faults when its operation does, and no other instruction writes the latch
(O42). LD B always accesses three bytes; the number of sprite rows is read from its field. -/
theorem onlyListedInstructionsFault : Obligations.OnlyListedInstructionsFault := by
  intro i s t h
  obtain ⟨-, -, -, -, -, -, hf, -⟩ := instructionsWriteOnlyTheirState i s t h
  cases i with
  | ret => exact execRet_faultsExactlyWhen h
  | call nnn => exact execCall_faultsExactlyWhen h
  | skp x | sknp x => exact skipOnKey_faultsExactlyWhen h
  | ldBVx x =>
    rw [exec_ldBVx] at h
    exact (withData_faultsExactlyWhen h rfl).of_iff (and_iff_right three_ne_zero)
  | ldMemVx x => rw [exec_ldMemVx] at h; exact withData_faultsExactlyWhen h rfl
  | ldVxMem x => rw [exec_ldVxMem] at h; exact withData_faultsExactlyWhen h rfl
  | drw x y n =>
    rw [exec_drw] at h
    exact (withData_faultsExactlyWhen h rfl).of_iff (and_congr_left' (BitVec.toNat_inj (y := 0)).not)
  | _ => exact of_not_not hf

/-! ## Fault entry -/

/-- MEM_FETCH is a cause of the fetch alone: no row of the fault table for the execute phase has it (R213). -/
theorem exec_cause_ne_memFetch {i : Instr} {s t : State} (h : exec i s = .next t) (hne : t.fault ≠ s.fault) :
    t.fault.cause ≠ .memFetch := by
  have listed {c : Prop} {cause : FaultCause} (hw : FaultsExactlyWhen c cause s t) (hc : cause ≠ .memFetch) :
      t.fault.cause ≠ .memFetch := by
    obtain hsame | ⟨-, hcause⟩ := hw.sameLatch_or_outOfBounds
    · exact absurd hsame hne
    · rwa [hcause]
  have hw := onlyListedInstructionsFault i s t h
  cases i with
  | ret | call _ | ldBVx _ | ldMemVx _ | ldVxMem _ | drw _ _ _ | skp _ | sknp _ => exact listed hw nofun
  | _ => exact absurd hw hne

/-- Settles O48, along what a STEP can do: the fetch and the decoder write the latch themselves, and an instruction that
faults latches a cause of the execute phase and the address before the advance. -/
theorem faultEntryWritesOnlyTheLatch : Obligations.FaultEntryWritesOnlyTheLatch := by
  intro s t hs h ht
  obtain ⟨hk, -⟩ | ⟨-, ha, hst⟩ | ⟨-, ha, hd, hst⟩ | ⟨-, ha, i, hd, hst⟩ := step_cases s
  · exact absurd hs hk
  · cases hst.symm.trans h
    exact ⟨rfl, fun _ => rfl, .inl ⟨ha, rfl, rfl⟩⟩
  · cases hst.symm.trans h
    exact ⟨rfl, fun _ => rfl, .inr ⟨ha, toNat_pc_advance ha, .inl ⟨hd, rfl⟩⟩⟩
  · have hexec := hst.symm.trans h
    have hne : t.fault ≠ s.advance.fault := fun hf => ht ((congrArg FaultLatch.kind hf).trans hs)
    have hfetch := exec_cause_ne_memFetch hexec hne
    obtain hf | ⟨c, hc, rfl⟩ := exec_fault_cases hexec
    · exact absurd hf hne
    · exact ⟨rfl, fun _ => rfl, .inr ⟨ha, toNat_pc_advance ha, .inr ⟨⟨i, hd⟩, rfl, hc, hfetch, pc_add_sub s.pc⟩⟩⟩

/-! ## The latch of a faulted CORE -/

section
variable {s t : State}

/-- A fitting LOAD keeps the latch, and an overflowing one overwrites it with its own fault (R192, R217). -/
theorem not_good_loadCommand (bytes : List Byte) (hs : ¬ s.Good) : ¬ (loadCommand bytes s).Good := by
  by_cases hb : 0x200 + bytes.length ≤ 4096
  · rw [loadCommand_of_fits hb]
    exact hs
  · rw [loadCommand_of_overflow (Nat.not_le.1 hb)]
    exact nofun

/-- A STEP of a faulted CORE ends where it begins; a tick and a key do not write the latch (R191, R194, R195). -/
theorem perform_keeps_latch {c : Command} (hs : ¬ s.Good) (hload : ∀ bytes, c ≠ .load bytes) (hreset : c ≠ .reset)
    (h : perform c s = .next t) : t.fault = s.fault := by
  cases c with
  | reset => exact absurd rfl hreset
  | load bytes => exact absurd rfl (hload bytes)
  | step rand =>
    obtain ⟨u, hu, rfl⟩ := stepCommand_next h
    cases (step_of_halted (s := s.present (some rand)) hs).symm.trans hu
    rfl
  | timerTick | key _ _ => cases h; rfl

end

/-- Settles O57: a LOAD leaves a faulted CORE faulted, and any other command but RESET leaves the latch itself. -/
theorem onlyResetClearsTheLatch : Obligations.OnlyResetClearsTheLatch := by
  intro c s t hs h
  refine ⟨fun hreset => ?_, fun hload hreset => perform_keeps_latch hs hload hreset h⟩
  by_cases hload : ∃ bytes, c = .load bytes
  · obtain ⟨bytes, rfl⟩ := hload
    cases h
    exact not_good_loadCommand bytes hs
  · have hf := perform_keeps_latch hs (fun bytes hc => hload ⟨bytes, hc⟩) hreset h
    rwa [State.Good, hf]

/-! ## The end of a run -/

/-- Settles O58: the jump puts back the `PC` the advance moved, and neither touches anything else. -/
theorem endOfRunIsAFixedPoint : Obligations.EndOfRunIsAFixedPoint := by
  intro e s hend
  obtain ⟨hs, hpc, ha, hd⟩ := hend
  have hself : wordOfNNN e = s.pc := BitVec.eq_of_toNat_eq ((toNat_wordOfNNN e).trans hpc.symm)
  calc step s
    _ = exec (.jp e) s.advance := step_of_decoded hs ha hd
    _ = .next { s.advance with pc := wordOfNNN e } := rfl
    _ = .next s := by rw [hself]; rfl

end Sys2Proof.Machine
